-- ==== Sys2Proof/Word.lean ====
section
/-! DEFINITION. The widths of the machine's values (spec/00_scope.md rules R5 and R6): every register,
memory cell and the `pc` hold 8 bits, the instruction register 16, a register number 4. -/

namespace Sys2Proof

/-- A byte: a register slot, a memory cell, an address, the `pc`, the immediate `lo` (rules R6, R64). -/
abbrev Byte := BitVec 8

/-- A 16-bit word: the instruction register and every instruction (rules R23, R60). -/
abbrev Word := BitVec 16

/-- A 4-bit field used as a register number: every value names one of the sixteen slots (rule R20). -/
abbrev RegNum := BitVec 4

/-- The twelve bits below the opcode, kept whole where the format ignores them (rules R63, R68). -/
abbrev Low12 := BitVec 12

end Sys2Proof
end

