-- ==== Sys2Proof/Machine/LoaderRegs.lean ====
section
/-! DEFINITION. The hidden registers of the image loader LDR and the sub-reasons of a format error
(spec/10_state.md rule R28, spec/46_image_loader.md rules R168, R170 and R173 to R177). -/

namespace Sys2Proof.Machine

/-- The loader's phase register `ph` (rule R28). -/
inductive Phase where
  /-- The next stream byte is the address of a pair. -/
  | addr
  /-- The next stream byte is the value of a pair. -/
  | val
  /-- The next stream byte belongs to an open block. -/
  | blk
  /-- A format error has been met; further bytes are ignored. -/
  | err
  deriving DecidableEq, Repr, Inhabited

/-- The sub-reason of a FormatError: four of `Decode` (rule R168), two of `DecodeRaw` (rule R170). -/
inductive FormatReason where
  | streamTooLong
  | blockPastMemory
  | truncatedPair
  | truncatedBlock
  | rawTooLong
  | rawTooShort
  deriving DecidableEq, Repr, Inhabited

/-- The registers of the loader state machine besides IMG, `ipc` and `img_valid` (rule R28). -/
structure Loader where
  /-- `ph`, the phase. -/
  ph : Phase
  /-- `pc_set`, whether the program-counter pair has been seen. -/
  pcSet : Bool
  /-- `a_lat`, the address byte of the pair being read. -/
  aLat : Byte
  /-- `dst`, the next destination of an open block. -/
  dst : Byte
  /-- `rem`, the bytes left of an open block. -/
  rem : Byte
  /-- `cnt`, the number of stream bytes consumed ("at least 10 bits": a count, so a natural number). -/
  cnt : Nat
  /-- `err`, the sub-reason of a format error met so far. -/
  err : Option FormatReason
  deriving DecidableEq, Repr, Inhabited

end Sys2Proof.Machine
end

