-- ==== Sys2Proof/Config.lean ====
section
/-! DEFINITION. What an implementation fixes: the nine named parameters of spec/00_scope.md rule R5,
and the free values, for what the spec says holds no specified value. The values the spec DECIDES for
the parameters are `Sys2Proof.Machine.params` (Machine/Params.lean). -/

namespace Sys2Proof

/-- `FETCH_ORDER` (rule R42): which of the two fetched bytes is `ir[15:8]`. -/
inductive FetchOrder where
  /-- the byte at `pc` is `ir[15:8]` -/
  | big
  /-- the byte at `pc` is `ir[7:0]` -/
  | little
  deriving DecidableEq, Repr

/-- `FETCH_AT_255` (rule R45): what a fetch at the last address does. -/
inductive FetchAt255 where
  /-- the Cycle ends with FetchOutOfBounds -/
  | fault
  /-- the second byte is `MEM[0]` -/
  | wrap
  deriving DecidableEq, Repr

/-- `HALT_MATCH` (rules R24, R74): which words halt. -/
inductive HaltMatch where
  /-- every word whose opcode field is 0xC -/
  | opcodeField
  /-- the one word 0xC000 -/
  | wordC000
  deriving DecidableEq, Repr

/-- `UNSUPPORTED_POLICY` (rules R67, R88): what the opcodes 0x0, 0xD and 0xF do. -/
inductive UnsupportedPolicy where
  /-- `continue`: a no-op that reports an event -/
  | carryOn
  /-- the Cycle ends with the error UnsupportedInstruction -/
  | fault
  deriving DecidableEq, Repr

/-- `RAW_SHORT_INPUT` (rule R170): what a raw dump shorter than 256 bytes does. -/
inductive RawShortInput where
  /-- FormatError (RawTooShort) -/
  | error
  /-- the missing bytes are 0x00 -/
  | zeroFill
  deriving DecidableEq, Repr

/-- The parameters of rule R5, under the spec's names. -/
structure Params where
  fetchOrder : FetchOrder
  fetchAt255 : FetchAt255
  haltMatch : HaltMatch
  unsupportedPolicy : UnsupportedPolicy
  /-- `FIXED_WIDTH`, at least 14 (rule R117) -/
  fixedWidth : Nat
  /-- `NARROW_ZERO` (rule R120): `none` is the value `hang`, a normalisation that never ends -/
  narrowZero : Option Byte
  /-- `NARROW_UNDERFLOW` (rule R121), from the sign (true: negative) and the magnitude 1..15 -/
  narrowUnderflow : Bool → Nat → Byte
  /-- `IMG_MAX_STREAM_BYTES` (rule R168) -/
  imgMaxStreamBytes : Nat
  rawShortInput : RawShortInput

namespace Config

/-- FREE VALUE, assumption log 1: what cell `a` of MEM holds at power-up, and until it is written (rules
R31, R32; 93_implementation_defined.md U14: "the model takes the initial MEM as an argument and may
assume nothing of it"). -/
opaque initialMem : (a : Nat) → Byte

/-- FREE VALUE, assumption log 4: cell `a` of IMG after the failed decode numbered `n` (rule R169: "The contents of
IMG and `ipc` after a failed decode are unspecified"). -/
opaque freeImageByte : (n a : Nat) → Byte

/-- FREE VALUE, assumption log 4: `ipc` after the failed decode numbered `n` (rule R169). -/
opaque freeEntry : (n : Nat) → Byte

/-- FREE VALUE, assumption log 5: the loader registers after the function-form decode numbered `n`, which rule R163
describes without them (rules R28 and R31: their values matter only inside one `Decode`, and each
`Decode` initialises them itself). -/
opaque freeLoader : (n : Nat) → Machine.Loader

end Config

end Sys2Proof
end

