-- ==== Sys2Proof/Machine/Params.lean ====
section
/-! DEFINITION. The parameter values this spec decides (spec/00_scope.md rule R5). -/

namespace Sys2Proof.Machine

/-- The column "value decided" of rule R5's table. -/
def params : Params where
  fetchOrder := .big
  fetchAt255 := .fault
  haltMatch := .opcodeField
  unsupportedPolicy := .carryOn
  fixedWidth := 16
  narrowZero := some 0x00#8
  narrowUnderflow := fun _ _ => 0x00#8
  imgMaxStreamBytes := 512
  rawShortInput := .error

end Sys2Proof.Machine
end

