-- ==== Sys2Proof/Syntax.lean ====
section
/-! DEFINITION. The instructions: one constructor per row of spec/opcode_table.json, in the order of
the opcode value (spec/30_encoding.md rules R63 and R65). An ignored field is kept, so that a decoded
instruction holds every bit of its word. -/

namespace Sys2Proof

/-- The sixteen cases of rule R65. -/
inductive Instr where
  /-- 0x0, UNSUPPORTED-0 (rule R103); the low twelve bits are ignored. -/
  | unsupported0 (ign : Low12)
  /-- 0x1, LOAD-MEM (rule R90): destination register, absolute address. -/
  | loadMem (r : RegNum) (a : Byte)
  /-- 0x2, LOAD-LITERAL (rule R91): destination register, literal. -/
  | loadLiteral (r : RegNum) (v : Byte)
  /-- 0x3, STORE-MEM (rule R92): source register, absolute address. -/
  | storeMem (r : RegNum) (a : Byte)
  /-- 0x4, COPY-REG (rule R100), a reserved placeholder. -/
  | copyReg (ign : Low12)
  /-- 0x5, ADD-INT (rule R101), a reserved placeholder. -/
  | addInt (ign : Low12)
  /-- 0x6, ADD-FLOAT (rule R127): destination, two sources. -/
  | addFloat (d p q : RegNum)
  /-- 0x7, OR (rule R140). -/
  | orReg (d p q : RegNum)
  /-- 0x8, AND (rule R141). -/
  | andReg (d p q : RegNum)
  /-- 0x9, XOR (rule R142). -/
  | xorReg (d p q : RegNum)
  /-- 0xA, ROTATE (rule R143): the register rotated, the ignored field `p2`, the count field `p3`. -/
  | rotate (d : RegNum) (ign : BitVec 4) (c : BitVec 4)
  /-- 0xB, JUMP-IF-EQ (rule R150): the register compared with `x[0]`, the absolute target. -/
  | jumpIfEq (r : RegNum) (t : Byte)
  /-- 0xC, HALT (rule R151); the low twelve bits are ignored. -/
  | halt (ign : Low12)
  /-- 0xD, UNSUPPORTED-D (rule R104). -/
  | unsupportedD (ign : Low12)
  /-- 0xE, EXTENSION (rule R102), a reserved placeholder. -/
  | extension (ign : Low12)
  /-- 0xF, UNSUPPORTED-F (rule R105). -/
  | unsupportedF (ign : Low12)
  deriving DecidableEq, Repr

/-- The opcode value of rule R65's first column. -/
def Instr.opcode : Instr → BitVec 4
  | .unsupported0 _ => 0x0#4
  | .loadMem _ _ => 0x1#4
  | .loadLiteral _ _ => 0x2#4
  | .storeMem _ _ => 0x3#4
  | .copyReg _ => 0x4#4
  | .addInt _ => 0x5#4
  | .addFloat _ _ _ => 0x6#4
  | .orReg _ _ _ => 0x7#4
  | .andReg _ _ _ => 0x8#4
  | .xorReg _ _ _ => 0x9#4
  | .rotate _ _ _ => 0xA#4
  | .jumpIfEq _ _ => 0xB#4
  | .halt _ => 0xC#4
  | .unsupportedD _ => 0xD#4
  | .extension _ => 0xE#4
  | .unsupportedF _ => 0xF#4

/-- The classes of rule R65's fourth column. -/
inductive InstrClass where
  | implemented
  | reserved
  | unsupported
  deriving DecidableEq, Repr

/-- The class of each row (rules R65, R66, R67). -/
def Instr.opClass : Instr → InstrClass
  | .unsupported0 _ => .unsupported
  | .loadMem _ _ => .implemented
  | .loadLiteral _ _ => .implemented
  | .storeMem _ _ => .implemented
  | .copyReg _ => .reserved
  | .addInt _ => .reserved
  | .addFloat _ _ _ => .implemented
  | .orReg _ _ _ => .implemented
  | .andReg _ _ _ => .implemented
  | .xorReg _ _ _ => .implemented
  | .rotate _ _ _ => .implemented
  | .jumpIfEq _ _ => .implemented
  | .halt _ => .implemented
  | .unsupportedD _ => .unsupported
  | .extension _ => .reserved
  | .unsupportedF _ => .unsupported

end Sys2Proof
end

