-- ==== Sys2Proof/WellFormed.lean ====
section
/-! DEFINITION. Which instructions are well-formed. A field's TYPE has exactly its width, every field
value names a register, an address or a literal (spec/10_state.md rule R20, spec/30_encoding.md rule
R64) and every value of an ignored field is accepted by the hardware (rule R68), so no term of `Instr`
is outside the instruction set and no statement about the machine needs a well-formedness premise. The
one check the spec gives is the ASSEMBLER'S: "fields the format ignores are assembled as zero"
(rule R70). A term that fails it still decodes and runs; no mnemonic of rule R70 spells it, it has to
be written as a `.word`. -/

namespace Sys2Proof

/-- The instruction is what an assembler line of rule R70 other than `.word` produces: the ignored
fields of rule R63 are zero, and the opcode has a mnemonic. -/
def Instr.canonical : Instr → Bool
  | .unsupported0 _ => false
  | .loadMem _ _ => true
  | .loadLiteral _ _ => true
  | .storeMem _ _ => true
  | .copyReg ign => ign == 0#12
  | .addInt ign => ign == 0#12
  | .addFloat _ _ _ => true
  | .orReg _ _ _ => true
  | .andReg _ _ _ => true
  | .xorReg _ _ _ => true
  | .rotate _ ign _ => ign == 0#4
  | .jumpIfEq _ _ => true
  | .halt ign => ign == 0#12
  | .unsupportedD _ => false
  | .extension ign => ign == 0#12
  | .unsupportedF _ => false

/-- The pseudo-instruction `JUMP 0xNN` of rule R71: JUMP-IF-EQ on register 0. -/
def Instr.jump (t : Byte) : Instr := .jumpIfEq 0#4 t

end Sys2Proof
end

