-- ==== Sys2Proof/Decode.lean ====
section
/-! DEFINITION. The decoder, total on 16-bit words (spec/30_encoding.md rules R61, R62, R65 and R72),
the byte layout of a word (spec/20_memory.md rule R42), and the encoder, written from the same table. -/

namespace Sys2Proof

/-- `op = ir[15:12]` (rule R61). -/
def opField (w : Word) : BitVec 4 := w.extractLsb' 12 4

/-- `p1 = ir[11:8]` (rule R61). -/
def p1Field (w : Word) : BitVec 4 := w.extractLsb' 8 4

/-- `p2 = ir[7:4]` (rule R61). -/
def p2Field (w : Word) : BitVec 4 := w.extractLsb' 4 4

/-- `p3 = ir[3:0]` (rule R61). -/
def p3Field (w : Word) : BitVec 4 := w.extractLsb' 0 4

/-- `lo = ir[7:0]`, that is `p2 || p3` (rule R62). -/
def loField (w : Word) : Byte := w.extractLsb' 0 8

/-- `ir[11:0]`, the bits that format Z ignores (rules R63, R68). -/
def low12Field (w : Word) : Low12 := w.extractLsb' 0 12

/-- The decoder on words: the case is selected by `op` alone and decoding cannot fail (rules R65, R72,
R82). The last case is `op = 0xF`. -/
def decode (w : Word) : Instr :=
  match opField w with
  | 0x0#4 => .unsupported0 (low12Field w)
  | 0x1#4 => .loadMem (p1Field w) (loField w)
  | 0x2#4 => .loadLiteral (p1Field w) (loField w)
  | 0x3#4 => .storeMem (p1Field w) (loField w)
  | 0x4#4 => .copyReg (low12Field w)
  | 0x5#4 => .addInt (low12Field w)
  | 0x6#4 => .addFloat (p1Field w) (p2Field w) (p3Field w)
  | 0x7#4 => .orReg (p1Field w) (p2Field w) (p3Field w)
  | 0x8#4 => .andReg (p1Field w) (p2Field w) (p3Field w)
  | 0x9#4 => .xorReg (p1Field w) (p2Field w) (p3Field w)
  | 0xA#4 => .rotate (p1Field w) (p2Field w) (p3Field w)
  | 0xB#4 => .jumpIfEq (p1Field w) (loField w)
  | 0xC#4 => .halt (low12Field w)
  | 0xD#4 => .unsupportedD (low12Field w)
  | 0xE#4 => .extension (low12Field w)
  | _ => .unsupportedF (low12Field w)

/-- Why a byte string is no instruction: only for want of bytes, since every word decodes (rule R72). -/
inductive DecodeError where
  /-- Fewer than the two bytes that every instruction occupies (rule R60). -/
  | truncated
  deriving DecidableEq, Repr

/-- The word of two consecutive bytes of MEM, the one at the lower address first (rule R42). -/
def wordOfBytes (P : Params) (first second : Byte) : Word :=
  match P.fetchOrder with
  | .big => first ++ second
  | .little => second ++ first

/-- The two bytes a word is stored as, the one at the lower address first (rule R42). -/
def bytesOfWord (P : Params) (w : Word) : Byte × Byte :=
  match P.fetchOrder with
  | .big => (w.extractLsb' 8 8, w.extractLsb' 0 8)
  | .little => (w.extractLsb' 0 8, w.extractLsb' 8 8)

/-- The decoder on bytes: one instruction and the bytes after it, or a rejection by name. -/
def decodeBytes (P : Params) : List Byte → Except DecodeError (Instr × List Byte)
  | first :: second :: rest => .ok (decode (wordOfBytes P first second), rest)
  | _ => .error .truncated

/-- The word of an instruction: format Z is `op || ignored`, RI is `op || p1 || lo`, RRR and RC are
`op || p1 || p2 || p3` (rules R63, R65). -/
def encode : Instr → Word
  | .unsupported0 ign => 0x0#4 ++ ign
  | .loadMem r a => 0x1#4 ++ r ++ a
  | .loadLiteral r v => 0x2#4 ++ r ++ v
  | .storeMem r a => 0x3#4 ++ r ++ a
  | .copyReg ign => 0x4#4 ++ ign
  | .addInt ign => 0x5#4 ++ ign
  | .addFloat d p q => 0x6#4 ++ d ++ p ++ q
  | .orReg d p q => 0x7#4 ++ d ++ p ++ q
  | .andReg d p q => 0x8#4 ++ d ++ p ++ q
  | .xorReg d p q => 0x9#4 ++ d ++ p ++ q
  | .rotate d ign c => 0xA#4 ++ d ++ ign ++ c
  | .jumpIfEq r t => 0xB#4 ++ r ++ t
  | .halt ign => 0xC#4 ++ ign
  | .unsupportedD ign => 0xD#4 ++ ign
  | .extension ign => 0xE#4 ++ ign
  | .unsupportedF ign => 0xF#4 ++ ign

/-- The bytes of an instruction as MEM holds them, lowest address first (rules R42, R60). -/
def encodeBytes (P : Params) (i : Instr) : List Byte :=
  [(bytesOfWord P (encode i)).1, (bytesOfWord P (encode i)).2]

/-- The instruction word whose low `nbits` bits are those of `w`, as spec/opcode_table.json numbers
them; the bits above `nbits` are zero. -/
def tableWord (nbits w : Nat) : Word := BitVec.ofNat 16 (w % 2 ^ nbits)

/-- The decoder's answer for the instruction word `tableWord nbits w`, laid out as MEM holds it. -/
def decodeTableWord (nbits w : Nat) : Option Instr :=
  match decodeBytes Machine.params
      [(bytesOfWord Machine.params (tableWord nbits w)).1,
       (bytesOfWord Machine.params (tableWord nbits w)).2] with
  | .ok (i, _) => some i
  | .error _ => none

end Sys2Proof
end

