-- ==== Sys2Proof/Machine/State.lean ====
section
/-! DEFINITION. The state of the core as plain data (spec/10_state.md), the events and abnormal
outcomes of its operations (spec/60_exceptions.md rule R201), and the state after power-up and
`Reset` (spec/10_state.md rule R31). -/

namespace Sys2Proof.Machine

/-- MEM (rule R26): address and byte pairs, addresses strictly rising and below 256. A cell that is not
listed has been written by nothing since power-up: it holds an unspecified byte, `Config.initialMem`
(rules R31, R32, assumption log 1). -/
abbrev Memory := List Host.Cell

/-- IMG (rule R27): address and byte pairs, addresses strictly rising and below 256, no value 0x00. A
cell that is not listed holds 0x00 (rule R33). -/
abbrev Image := List Host.Cell

/-- A report attached to an `Ok` outcome (rules R12, R204). -/
inductive Event where
  /-- UnsupportedInstruction(op, pc): the opcode and the address of the instruction. -/
  | unsupportedInstruction (op : BitVec 4) (pc : Byte)
  deriving DecidableEq, Repr

/-- The abnormal outcomes of rule R201 and one stop of this model. -/
inductive Fault where
  /-- FetchOutOfBounds (rules R45, R205), raised by `Cycle` when `pc = 255`; nothing changes. Safe: it
  is the outcome the spec decides. -/
  | fetchOutOfBounds (pc : Byte)
  /-- UnsupportedInstruction as an error (rule R88), raised by `Cycle` only under
  `UNSUPPORTED_POLICY = fault`, which is not the decided value: no step of `params` raises it. Safe. -/
  | unsupportedInstruction (op : BitVec 4) (pc : Byte)
  /-- `NARROW_ZERO = hang` (rules R5, R120): the normalisation does not end. Raised by ADD-FLOAT only
  under that parameter value, which is not the decided one. Safe. -/
  | normaliserHang
  /-- FormatError with its informative sub-reason (rules R168, R170, R203), raised by `Decode`,
  `DecodeRaw` and `End`. Safe. -/
  | formatError (reason : Option FormatReason)
  /-- NoImage (rules R171, R179), raised by `LoadImage` and `Encode` while `img_valid` is false. Safe. -/
  | noImage
  /-- ConfigurationError (rule R202): MEM is always present, so nothing raises it. It is listed because
  rule R201 lists it. Safe. -/
  | configurationError
  deriving DecidableEq, Repr

/-- A step with no meaning. -/
inductive Refusal where
  /-- The instruction of that mnemonic has no meaning yet. Raised by no arm of `exec`: every row of the
  opcode table has its meaning. Safe. -/
  | notModelled (mnemonic : String)
  deriving DecidableEq, Repr

/-- The whole state (rules R30, R28), and two fields of the MODEL's own (`report`, `freeCtr`). -/
structure State where
  /-- `x[0]` .. `x[15]`, none hardwired (rule R20). -/
  x : Vector Byte 16
  /-- The program counter (rule R22). -/
  pc : Byte
  /-- The instruction register, the most recently fetched word (rule R23). -/
  ir : Word
  /-- MEM (rule R26). -/
  mem : Memory
  /-- IMG (rule R27). -/
  img : Image
  /-- `ipc`, the entry point the decoder resolved (rule R27). -/
  ipc : Byte
  /-- `img_valid`, whether the last decode ended `Ok` (rule R27). -/
  imgValid : Bool
  /-- The hidden registers of the loader (rule R28). -/
  ldr : Loader
  /-- MODEL'S OWN, assumption log 3: the event the most recent `Cycle` handed to the host. No rule reads it. -/
  report : Option Event
  /-- MODEL'S OWN, assumption log 4: how many groups of free values have been used. Only decodes read it. -/
  freeCtr : Nat
  deriving DecidableEq, Repr

/-- Power-up followed by `Reset` (rules R31, R220): registers, `ir` and `pc` are zero, `img_valid` is
false, and no cell of MEM has been written. IMG, `ipc` and the loader registers have no specified value;
the model names zero, no error and the phase ADDR (DESIGN CHOICE, assumption log 2). -/
def State.reset : State where
  x := Vector.replicate 16 0x00#8
  pc := 0x00#8
  ir := 0x0000#16
  mem := []
  img := []
  ipc := 0x00#8
  imgValid := false
  ldr := { ph := .addr, pcSet := false, aLat := 0x00#8, dst := 0x00#8, rem := 0x00#8, cnt := 0, err := none }
  report := none
  freeCtr := 0

end Sys2Proof.Machine
end

