-- ==== Sys2Proof/Machine/Ops.lean ====
section
/-! DEFINITION. The named operations over memory, registers, the `pc` and the instruction fetch
(spec/10_state.md, spec/20_memory.md, spec/40_cycle.md). There is no exception to take and none to
return from: the machine has no trap mechanism (spec/60_exceptions.md rules R200, R208, R209). What it
has instead, the event of an unsupported opcode, is `emit`. -/

namespace Sys2Proof.Machine

/-- What the execute step of an instruction answers. -/
abbrev Result := Host.Outcome State Fault Refusal

/-! ### Lists of cells -/

/-- The byte listed at an address, if one is. -/
def cellsRead : List Host.Cell → Nat → Option Byte
  | [], _ => none
  | (b, w) :: m, a => if a = b then some w else cellsRead m a

/-- List the byte `v` at the address `a`, in place of a byte listed there. -/
def cellsInsert : List Host.Cell → Nat → Byte → List Host.Cell
  | [], a, v => [(a, v)]
  | (b, w) :: m, a, v =>
    if a < b then (a, v) :: (b, w) :: m
    else if a = b then (a, v) :: m
    else (b, w) :: cellsInsert m a v

/-- List nothing at the address `a`. -/
def cellsErase (m : List Host.Cell) (a : Nat) : List Host.Cell :=
  m.filter (fun c => c.1 != a)

/-- The addresses are strictly rising, the first at least `lo`, all below 256 (rule R26). -/
def cellsRising : Nat → List Host.Cell → Bool
  | _, [] => true
  | lo, (a, _) :: m => decide (lo ≤ a) && decide (a < 256) && cellsRising (a + 1) m

/-! ### MEM (rules R26, R41) -/

/-- The canonical form of MEM: the cells that have been written, each once, at rising addresses. What an
unlisted cell holds is a free value, which no listed byte can be compared with (assumption log 1). -/
def Memory.wf (m : Memory) : Bool := cellsRising 0 m

/-- What an unlisted cell reads as: the unspecified byte it holds since power-up (rule R31, U14). -/
def Memory.unwritten (a : Byte) : Byte := Config.initialMem a.toNat

/-- `MemRead(a, 1)`: the byte most recently written, or the unspecified one of a cell that nothing has
written (rules R41, R32). -/
def Memory.read (m : Memory) (a : Byte) : Byte := (cellsRead m a.toNat).getD (Memory.unwritten a)

/-- A `LoadImage`, a STORE-MEM or the host has written the cell (rule R32). -/
def Memory.written (m : Memory) (a : Byte) : Bool := (cellsRead m a.toNat).isSome

/-- `MemWrite(a, 1, v)` (rule R41). -/
def Memory.write (m : Memory) (a v : Byte) : Memory := cellsInsert m a.toNat v

/-- Every cell of MEM has been written, as after a `LoadImage` (rules R32, R33). -/
def Memory.full (m : Memory) : Prop := ∀ a : Byte, Memory.written m a = true

/-! ### IMG (rules R27, R33) -/

/-- The canonical form of IMG: no listed byte is 0x00, which is what an unlisted cell holds. -/
def Image.wf (g : Image) : Bool := cellsRising 0 g && g.all (fun c => c.2 != 0x00#8)

/-- `IMG[a]`; every cell the stream does not write is 0x00 (rule R33). -/
def Image.read (g : Image) (a : Byte) : Byte := (cellsRead g a.toNat).getD 0x00#8

/-- `IMG[a] <- v`. -/
def Image.write (g : Image) (a v : Byte) : Image :=
  if v = 0x00#8 then cellsErase g a.toNat else cellsInsert g a.toNat v

/-- The addresses `0 .. n-1`, as bytes. -/
def addresses (n : Nat) : List Byte := (List.range n).map (BitVec.ofNat 8)

/-- The 256 bytes `MEM[0]` .. `MEM[255]` in that order (rule R13). -/
def Memory.bytes (m : Memory) : List Byte := (addresses 256).map (Memory.read m)

/-- The 256 bytes `IMG[0]` .. `IMG[255]` in that order (rule R171). -/
def Image.bytes (g : Image) : List Byte := (addresses 256).map (Image.read g)

/-- MEM after `MEM[i] <- IMG[i]` for all 256 cells (rule R179). -/
def Image.toMemory (g : Image) : Memory :=
  (addresses 256).map (fun a => (a.toNat, Image.read g a))

/-- `IMG[a + k] <- bs[k]` for every `k`, in order (rules R165, R170). -/
def Image.copy (g : Image) (a : Byte) : List Byte → Image
  | [] => g
  | b :: bs => Image.copy (Image.write g a b) (a + 1) bs

/-! ### Registers, MEM and `pc` in the state -/

/-- `x[i]` (rules R7, R20). -/
def readReg (s : State) (i : RegNum) : Byte := s.x[i.toNat]'i.isLt

/-- `x[i] <- v`; no slot is hardwired (rules R7, R20). -/
def writeReg (s : State) (i : RegNum) (v : Byte) : State := { s with x := s.x.set i.toNat v i.isLt }

/-- `MemRead(a, 1)`: every address is valid, so it always answers a byte (rules R40, R41). -/
def readMem (s : State) (a : Byte) : Byte := Memory.read s.mem a

/-- `MemWrite(a, 1, v)` (rule R41). -/
def writeMem (s : State) (a v : Byte) : State := { s with mem := Memory.write s.mem a v }

/-- `pc <- t` (rule R7). -/
def setPc (s : State) (t : Byte) : State := { s with pc := t }

/-- The default successor: `pc <- (pc + 2) mod 256` (rule R84). -/
def advance (s : State) : State := setPc s (s.pc + 2#8)

/-- `emit E`: the event goes to the host with the `Ok` outcome and changes nothing else (rules R7, R204). -/
def emit (s : State) (e : Event) : State := { s with report := some e }

/-! ### The fetch (rules R42, R45, R81) -/

/-- `MemRead(pc, 2)`: the fetched word, or why there is none. -/
def fetchWord (P : Params) (s : State) : Except Fault Word :=
  if s.pc = 255#8 ∧ P.fetchAt255 = .fault then .error (.fetchOutOfBounds s.pc)
  else .ok (wordOfBytes P (readMem s s.pc) (readMem s (s.pc + 1#8)))

/-- `ir <- w` in a new `Cycle`, which has reported nothing yet (rules R81, R12). -/
def fetched (s : State) (w : Word) : State := { s with ir := w, report := none }

/-- Steps 1 and 2 of rule R80. -/
def fetch (s : State) : Except Fault State :=
  match fetchWord params s with
  | .error f => .error f
  | .ok w => .ok (fetched s w)

/-- Where a fetch is made from: the `pc`, but 254 where a fetch at the `pc` is out of bounds (rule R45). -/
def fetchableAt (P : Params) (pc : Byte) : Byte :=
  if pc = 255#8 ∧ P.fetchAt255 = .fault then 254#8 else pc

/-- The state with the word `w` stored where the next fetch reads. -/
def storeFetchWord (P : Params) (s : State) (w : Word) : State :=
  let t := setPc s (fetchableAt P s.pc)
  writeMem (writeMem t t.pc (bytesOfWord P w).1) (t.pc + 1#8) (bytesOfWord P w).2

end Sys2Proof.Machine
end

