-- ==== Sys2Proof/Machine/Operands.lean ====
section
/-! DEFINITION. The operand forms: a register named by a 4-bit field (`readReg`, `writeReg` of
Ops.lean), the implicit comparand `x[0]`, the immediate `lo` as a literal, an absolute address or an
absolute target (used as it stands), and the rotate count `p3 mod 8` (spec/30_encoding.md rules R63
and R64, spec/10_state.md rule R21). There are no other forms. -/

namespace Sys2Proof.Machine

/-- The one implicit register operand of the machine: JUMP-IF-EQ's comparand `x[0]` (rule R21). -/
def comparand (s : State) : Byte := readReg s 0#4

/-- The rotate count of the field `p3`: only `p3 mod 8` is used (rules R64, R68, R143). -/
def rotateCount (c : BitVec 4) : Nat := c.toNat % 8

/-- `ror8(v, r)` (rule R7): `((v >> r) | (v << (8 - r))) mod 256`, and `v` itself for `r = 0`. -/
def ror8 (v : Byte) (r : Nat) : Byte :=
  if r = 0 then v else (v >>> r) ||| (v <<< (8 - r))

end Sys2Proof.Machine
end

