-- ==== Sys2Proof/Machine/Control.lean ====
section
/-! DEFINITION. JUMP-IF-EQ and HALT (spec/45_control.md). -/

namespace Sys2Proof.Machine

/-- JUMP-IF-EQ (rules R150, R84): taken, `pc` becomes exactly `lo`; not taken, it advances by 2. -/
def execJumpIfEq (r : RegNum) (t : Byte) (s : State) : Result :=
  if readReg s r = comparand s then .next (setPc s t) else .next (advance s)

/-- HALT (rules R151, R84): `pc` keeps its value. Under `HALT_MATCH = word_C000`, not the decided value,
a word with non-zero low bits has no effect and advances (rule R74). -/
def execHalt (ign : Low12) (s : State) : Result :=
  match params.haltMatch with
  | .opcodeField => .next s
  | .wordC000 => if ign = 0#12 then .next s else .next (advance s)

end Sys2Proof.Machine
end

