-- ==== Sys2Proof/Machine/DataMovement.lean ====
section
/-! DEFINITION. LOAD-MEM, LOAD-LITERAL and STORE-MEM (spec/41_data_movement.md). -/

namespace Sys2Proof.Machine

/-- LOAD-MEM (rule R90): `x[p1] <- MemRead(lo, 1)`. -/
def execLoadMem (r : RegNum) (a : Byte) (s : State) : Result :=
  .next (advance (writeReg s r (readMem s a)))

/-- LOAD-LITERAL (rule R91): `x[p1] <- lo`. -/
def execLoadLiteral (r : RegNum) (v : Byte) (s : State) : Result :=
  .next (advance (writeReg s r v))

/-- STORE-MEM (rule R92): `MemWrite(lo, 1, x[p1])`. -/
def execStoreMem (r : RegNum) (a : Byte) (s : State) : Result :=
  .next (advance (writeMem s a (readReg s r)))

end Sys2Proof.Machine
end

