-- ==== Sys2Proof/Machine/LogicRotate.lean ====
section
/-! DEFINITION. OR, AND, XOR and ROTATE (spec/44_logic_rotate.md). -/

namespace Sys2Proof.Machine

/-- OR (rule R140): `x[p1] <- x[p2] | x[p3]`. -/
def execOrReg (d p q : RegNum) (s : State) : Result :=
  .next (advance (writeReg s d (readReg s p ||| readReg s q)))

/-- AND (rule R141): `x[p1] <- x[p2] & x[p3]`. -/
def execAndReg (d p q : RegNum) (s : State) : Result :=
  .next (advance (writeReg s d (readReg s p &&& readReg s q)))

/-- XOR (rule R142): `x[p1] <- x[p2] ^ x[p3]`. -/
def execXorReg (d p q : RegNum) (s : State) : Result :=
  .next (advance (writeReg s d (readReg s p ^^^ readReg s q)))

/-- ROTATE (rule R143): `x[p1] <- ror8(x[p1], p3 mod 8)`; `p2` is ignored. -/
def execRotate (d _ign c : BitVec 4) (s : State) : Result :=
  .next (advance (writeReg s d (ror8 (readReg s d) (rotateCount c))))

end Sys2Proof.Machine
end

