-- ==== Sys2Proof/Machine/Minifloat.lean ====
section
/-! DEFINITION. The minifloat codec MFC and the instruction ADD-FLOAT (spec/43_minifloat.md). The codec
has no state (rule R29): these are functions of their operands. -/

namespace Sys2Proof.Machine

/-- `S = m[7]`, true for negative (rule R110). -/
def mfSign (m : Byte) : Bool := m.getLsbD 7

/-- `E = m[6:4]`, the biased exponent (rule R110). -/
def mfExp (m : Byte) : Nat := (m.extractLsb' 4 3).toNat

/-- `M = m[3:0]`, the mantissa (rule R110). -/
def mfMant (m : Byte) : Nat := (m.extractLsb' 0 4).toNat

/-- Widen's significand: the mantissa with the hidden one (rule R115). -/
def significand (m : Byte) : Nat := mfMant m ||| 0b10000

/-- Widen's magnitude: the significand shifted left by 3, then by the true exponent, left where it is
positive and right where it is not (rule R115). -/
def widenMag (m : Byte) : Nat :=
  let e : Int := (mfExp m : Int) - 3
  if 0 < e then (significand m <<< 3) <<< e.toNat else (significand m <<< 3) >>> (-e).toNat

/-- `Widen(m)`, a signed fixed-point integer at scale 128 (rules R115, R116). -/
def widen (m : Byte) : Int := if mfSign m then -(widenMag m : Int) else (widenMag m : Int)

/-- Narrow's loop: while bit 11 of `w` is clear, shift `w` left by one and count the shift; at most
`fuel` times (rule R118; the spec's bound is 11, rule R230). -/
def normalise : (fuel w c : Nat) → Nat × Nat
  | 0, w, c => (w, c)
  | fuel + 1, w, c => if w.testBit 11 then (w, c) else normalise fuel (w <<< 1) (c + 1)

/-- The byte of a sign, an exponent field and a five-bit significand, whose hidden one is dropped
(rules R110, R118). -/
def packMinifloat (sign : Bool) (e t : Nat) : Byte :=
  BitVec.ofNat 8 ((sign.toNat <<< 7) ||| (e <<< 4) ||| (t % 16))

/-- `Narrow(v)` (rules R118 to R122); `none` is a normalisation that does not end, which only
`NARROW_ZERO = hang` gives. -/
def narrow (P : Params) (v : Int) : Option Byte :=
  let w := v.natAbs % 4096
  if w = 0 then P.narrowZero
  else
    let n := normalise 11 w 0
    if 7 < n.2 then some (P.narrowUnderflow (decide (v < 0)) w)
    else some (packMinifloat (decide (v < 0)) (7 - n.2) ((n.1 <<< 1) >>> 8))

/-- "standard signed integer addition" on the fixed-point word of `FIXED_WIDTH` bits (rules R117, R124). -/
def fixedAdd (P : Params) (a b : Int) : Int := (BitVec.ofInt P.fixedWidth (a + b)).toInt

/-- `MfAdd(a, b)` (rule R124). -/
def mfAdd (P : Params) (a b : Byte) : Option Byte :=
  if a = 0x00#8 ∧ b = 0x00#8 then some 0x00#8
  else if a = 0x00#8 then some b
  else if b = 0x00#8 then some a
  else narrow P (fixedAdd P (widen a) (widen b))

/-- ADD-FLOAT (rule R127): `x[p1] <- MfAdd(x[p2], x[p3])`. -/
def execAddFloat (d p q : RegNum) (s : State) : Result :=
  match mfAdd params (readReg s p) (readReg s q) with
  | some v => .next (advance (writeReg s d v))
  | none => .fault .normaliserHang

end Sys2Proof.Machine
end

