-- ==== Sys2Proof/Machine/Reserved.lean ====
section
/-! DEFINITION. The reserved placeholders COPY-REG, ADD-INT and EXTENSION and the unsupported opcodes
0x0, 0xD and 0xF (spec/42_reserved_and_unsupported.md). The low twelve bits have no effect. -/

namespace Sys2Proof.Machine

/-- COPY-REG (rule R100): no effect, no event. -/
def execCopyReg (_ign : Low12) (s : State) : Result := .next (advance s)

/-- ADD-INT (rule R101): no effect, no event. -/
def execAddInt (_ign : Low12) (s : State) : Result := .next (advance s)

/-- EXTENSION (rule R102): no effect, no event. -/
def execExtension (_ign : Low12) (s : State) : Result := .next (advance s)

/-- What an unsupported opcode does (rules R67, R88, R204): under the decided policy it reports the
event and is otherwise a no-op. -/
def unsupportedOpcode (P : Params) (op : BitVec 4) (s : State) : Result :=
  match P.unsupportedPolicy with
  | .carryOn => .next (advance (emit s (.unsupportedInstruction op s.pc)))
  | .fault => .fault (.unsupportedInstruction op s.pc)

/-- Opcode 0x0 (rule R103). -/
def execUnsupported0 (_ign : Low12) (s : State) : Result := unsupportedOpcode params 0x0#4 s

/-- Opcode 0xD (rule R104). -/
def execUnsupportedD (_ign : Low12) (s : State) : Result := unsupportedOpcode params 0xD#4 s

/-- Opcode 0xF (rule R105). -/
def execUnsupportedF (_ign : Low12) (s : State) : Result := unsupportedOpcode params 0xF#4 s

end Sys2Proof.Machine
end

