-- ==== Sys2Proof/Machine/Dispatch.lean ====
section
/-! DEFINITION. Step 5 of rule R80: exactly one case runs, chosen by the opcode (rule R83). -/

namespace Sys2Proof.Machine

def exec (i : Instr) (s : State) : Host.Outcome State Fault Refusal :=
  match i with
  | .unsupported0 ign => Sys2Proof.Machine.execUnsupported0 ign s
  | .loadMem r a => Sys2Proof.Machine.execLoadMem r a s
  | .loadLiteral r v => Sys2Proof.Machine.execLoadLiteral r v s
  | .storeMem r a => Sys2Proof.Machine.execStoreMem r a s
  | .copyReg ign => Sys2Proof.Machine.execCopyReg ign s
  | .addInt ign => Sys2Proof.Machine.execAddInt ign s
  | .addFloat d p q => Sys2Proof.Machine.execAddFloat d p q s
  | .orReg d p q => Sys2Proof.Machine.execOrReg d p q s
  | .andReg d p q => Sys2Proof.Machine.execAndReg d p q s
  | .xorReg d p q => Sys2Proof.Machine.execXorReg d p q s
  | .rotate d ign c => Sys2Proof.Machine.execRotate d ign c s
  | .jumpIfEq r t => Sys2Proof.Machine.execJumpIfEq r t s
  | .halt ign => Sys2Proof.Machine.execHalt ign s
  | .unsupportedD ign => Sys2Proof.Machine.execUnsupportedD ign s
  | .extension ign => Sys2Proof.Machine.execExtension ign s
  | .unsupportedF ign => Sys2Proof.Machine.execUnsupportedF ign s

end Sys2Proof.Machine
end

