-- ==== Sys2Proof/Machine/Step.lean ====
section
/-! DEFINITION. One step of the machine is one `Cycle` (spec/40_cycle.md rule R80). -/

namespace Sys2Proof.Machine

/-- `Cycle`: fetch, decode, execute, advance. It is not disabled by `halted` (rule R86). -/
def step (s : State) : Host.Outcome State Fault Refusal :=
  match fetch s with
  | .error f => .fault f
  | .ok t => exec (decode t.ir) t

/-- The state with the instruction word `tableWord nbits w` where the next `step` fetches it. Every
instruction is one word (rule R60), so two bytes of MEM are written. -/
def State.withFetchWord (s : State) (nbits w : Nat) : State :=
  storeFetchWord params s (tableWord nbits w)

end Sys2Proof.Machine
end

