-- ==== Sys2Proof/Machine/Flags.lean ====
section
/-! DEFINITION. The machine has NO flags, condition codes, carry, overflow or error bits, and no
instruction computes one (spec/10_state.md rule R25). The one condition it has is derived, not stored:
`halted` (rule R24). -/

namespace Sys2Proof.Machine

/-- The word is a HALT (rules R24, R65, R74). -/
def isHalt (P : Params) (w : Word) : Bool :=
  match P.haltMatch with
  | .opcodeField => opField w == 0xC#4
  | .wordC000 => w == 0xC000#16

/-- The halt condition: the most recently fetched word is a HALT (rule R24). -/
def halted (s : State) : Bool := isHalt params s.ir

end Sys2Proof.Machine
end

