-- ==== Sys2Proof/Machine/Loader.lean ====
section
/-! DEFINITION. The image loader LDR (spec/46_image_loader.md): `Decode` as a function of a stream
(rules R162 to R168), `DecodeRaw` and `Encode` (rules R170, R171), and the byte-serial state machine
`Begin`, `Byte`, `End` (rules R173 to R177). -/

namespace Sys2Proof.Machine

/-! ### Decode as a function (rule R163) -/

/-- What `Decode` has built: IMG, `ipc` and `pc_set`. -/
structure Decoded where
  img : Image
  ipc : Byte
  pcSet : Bool
  deriving DecidableEq, Repr

/-- The all-zero image with no program counter (rule R162). -/
def emptyDecoded : Decoded := { img := [], ipc := 0x00#8, pcSet := false }

/-- The first program-counter pair: it sets `ipc` and writes `IMG[0]` (rule R164). -/
def setEntry (d : Decoded) (v : Byte) : Decoded :=
  { img := Image.write d.img 0x00#8 v, ipc := v, pcSet := true }

/-- A plain write (rule R166). -/
def plainWrite (d : Decoded) (a v : Byte) : Decoded := { d with img := Image.write d.img a v }

/-- The loop of rule R163 over the rest of the stream. Every turn takes two bytes or more, so a `fuel`
of the stream's length never runs out (rule R230). -/
def decodePairs : (fuel : Nat) → List Byte → Decoded → Except FormatReason Decoded
  | _, [], d => .ok d
  | 0, _ :: _, _ => .error .truncatedPair
  | _ + 1, [_], _ => .error .truncatedPair
  | fuel + 1, a :: v :: rest, d =>
    if a = 0x00#8 ∧ d.pcSet = false then decodePairs fuel rest (setEntry d v)
    else if d.pcSet = true ∧ a = d.ipc then
      if 256 < a.toNat + v.toNat then .error .blockPastMemory
      else if rest.length < v.toNat then .error .truncatedBlock
      else decodePairs fuel (rest.drop v.toNat)
        { d with img := Image.copy d.img a (rest.take v.toNat) }
    else decodePairs fuel rest (plainWrite d a v)

/-- `Decode(s)` (rule R163). -/
def decodeStream (P : Params) (stream : List Byte) : Except FormatReason Decoded :=
  if P.imgMaxStreamBytes < stream.length then .error .streamTooLong
  else decodePairs stream.length stream emptyDecoded

/-! ### DecodeRaw and Encode (rules R170, R171) -/

/-- `DecodeRaw(s)`: the image, with its byte 0 as the entry point (rule R170). -/
def decodeRawStream (P : Params) (stream : List Byte) : Except FormatReason (Image × Byte) :=
  if 256 < stream.length then .error .rawTooLong
  else if stream.length < 256 ∧ P.rawShortInput = .error then .error .rawTooShort
  else .ok (Image.copy [] 0x00#8 stream, Image.read (Image.copy [] 0x00#8 stream) 0x00#8)

/-! ### The free image of a failed decode (rule R169, assumption log 4) -/

/-- An image of unspecified bytes. -/
@[irreducible] def freeImage (n : Nat) : Image :=
  (addresses 256).foldl (fun g a => Image.write g a (Config.freeImageByte n a.toNat)) []

/-- The state after a failed `Decode` or `DecodeRaw`: `img_valid` is false, IMG and `ipc` hold
unspecified values, and nothing outside the loader changes (rule R169). -/
def decodeFailed (s : State) : State :=
  { s with img := freeImage s.freeCtr, ipc := Config.freeEntry s.freeCtr, imgValid := false,
           freeCtr := s.freeCtr + 1 }

/-- The state after a decode that ended `Ok` (rules R163, R170). -/
def decodeDone (s : State) (g : Image) (entry : Byte) : State :=
  { s with img := g, ipc := entry, imgValid := true }

/-- The loader registers hold unspecified values (rules R28, R31, assumption log 5). -/
def scrambleLoader (s : State) : State :=
  { s with ldr := Config.freeLoader s.freeCtr, freeCtr := s.freeCtr + 1 }

/-! ### Decode as a state machine (rules R173 to R177) -/

/-- `Begin` (rule R173). The latches `a_lat`, `dst` and `rem` keep their values: no phase reads one
before it is written. -/
def loaderBegin (s : State) : State :=
  { s with
    img := [], ipc := 0x00#8, imgValid := false
    ldr := { s.ldr with pcSet := false, cnt := 0, ph := .addr, err := none } }

/-- The loader in the phase ERR (rules R174, R175). -/
def loaderError (s : State) (r : FormatReason) : State :=
  { s with ldr := { s.ldr with ph := .err, err := some r } }

/-- `Byte(b)` in the phase VAL (rule R175). -/
def loaderValue (s : State) (v : Byte) : State :=
  let a := s.ldr.aLat
  if a = 0x00#8 ∧ s.ldr.pcSet = false then
    { s with ipc := v, img := Image.write s.img 0x00#8 v, ldr := { s.ldr with pcSet := true, ph := .addr } }
  else if s.ldr.pcSet = true ∧ a = s.ipc then
    if 256 < a.toNat + v.toNat then loaderError s .blockPastMemory
    else if v = 0x00#8 then { s with ldr := { s.ldr with ph := .addr } }
    else { s with ldr := { s.ldr with dst := a, rem := v, ph := .blk } }
  else { s with img := Image.write s.img a v, ldr := { s.ldr with ph := .addr } }

/-- `Byte(b)` in the phase BLK (rule R176). -/
def loaderBlock (s : State) (b : Byte) : State :=
  { s with
    img := Image.write s.img s.ldr.dst b
    ldr := { s.ldr with
      dst := s.ldr.dst + 1#8, rem := s.ldr.rem - 1#8
      ph := if s.ldr.rem - 1#8 = 0x00#8 then .addr else .blk } }

/-- The byte is counted (rule R174). -/
def loaderCount (s : State) : State := { s with ldr := { s.ldr with cnt := s.ldr.cnt + 1 } }

/-- `Byte(b)` in any phase (rules R174 to R176). -/
def loaderByte (P : Params) (s : State) (b : Byte) : State :=
  match s.ldr.ph with
  | .err => s
  | .addr =>
    if s.ldr.cnt = P.imgMaxStreamBytes then loaderError s .streamTooLong
    else { loaderCount s with ldr := { (loaderCount s).ldr with aLat := b, ph := .val } }
  | .val =>
    if s.ldr.cnt = P.imgMaxStreamBytes then loaderError s .streamTooLong
    else loaderValue (loaderCount s) b
  | .blk =>
    if s.ldr.cnt = P.imgMaxStreamBytes then loaderError s .streamTooLong
    else loaderBlock (loaderCount s) b

/-- The bytes of a stream, in order. -/
def loaderBytes (P : Params) (s : State) (stream : List Byte) : State :=
  stream.foldl (loaderByte P) s

/-- The state after an `End` that is `Ok` (rule R177). -/
def loaderEnd (s : State) : State := { s with imgValid := true }

/-- The state after a failed decode of the pair format, by `Decode` or by `End`: IMG, `ipc` and the
loader registers hold unspecified values (rules R169, R28, assumption logs 4 and 5). -/
def loaderFailed (s : State) : State := decodeFailed (scrambleLoader s)

/-- `Begin; Byte(s[0]); ..; Byte(s[L-1])` (rule R178). -/
def loaderRun (P : Params) (s : State) (stream : List Byte) : State :=
  loaderBytes P (loaderBegin s) stream

end Sys2Proof.Machine
end

