-- ==== Sys2Proof/Machine/Operations.lean ====
section
/-! DEFINITION. The operations of the block, which the host invokes one at a time and each of which is
atomic (spec/00_scope.md rules R8, R10, R12 to R14, spec/70_reset_and_hazards.md, spec/46_image_loader.md),
and the host's run loop (rules R11, R85, R223, R225). -/

namespace Sys2Proof.Machine

/-- The operations of rule R10, the loader's byte-serial inputs (rule R173), and the host's own
accesses to MEM between operations (rule R14). -/
inductive Operation where
  | reset
  | start
  | loadImage
  | cycle
  | decode (stream : List Byte)
  | decodeRaw (stream : List Byte)
  | encode
  | observe
  | loaderBegin
  | loaderByte (b : Byte)
  | loaderEnd
  | hostRead (a : Byte)
  | hostWrite (a v : Byte)
  deriving DecidableEq, Repr

/-- What `Observe` shows (rule R13). -/
structure Observation where
  /-- `MEM[0]` .. `MEM[255]` -/
  mem : List Byte
  x : Vector Byte 16
  ir : Word
  pc : Byte
  deriving DecidableEq, Repr

/-- What an operation that ends `Ok` hands to the host, besides an event (rules R10, R12). -/
inductive OpResult where
  | none
  | ipc (v : Byte)
  | byte (v : Byte)
  | bytes (vs : List Byte)
  | observation (o : Observation)
  deriving DecidableEq, Repr

/-- Every operation ends with exactly one outcome (rule R12), in a state. -/
inductive OpOutcome where
  /-- `Ok`, with the operation's result and at most one event -/
  | ok (s : State) (r : OpResult) (e : Option Event)
  /-- one error -/
  | error (s : State) (f : Fault)
  /-- no meaning; no operation answers it -/
  | refused (r : Refusal)
  deriving Repr

/-- The state an operation leaves, whatever its outcome; `s` where it has no meaning. -/
def OpOutcome.stateOr (s : State) : OpOutcome → State
  | .ok t _ _ => t
  | .error t _ => t
  | .refused _ => s

/-- `Reset`, invoked on any state: the registers, `ir` and `pc` become zero and nothing else is
written (rules R220, R222). -/
def resetOp (s : State) : State :=
  { s with x := Vector.replicate 16 0x00#8, ir := 0x0000#16, pc := 0x00#8 }

/-- `Start`: `pc <- MemRead(0, 1)` (rule R180). -/
def startOp (s : State) : OpOutcome := .ok (setPc s (readMem s 0x00#8)) .none none

/-- `LoadImage` (rule R179). -/
def loadImageOp (s : State) : OpOutcome :=
  if s.imgValid then .ok { s with mem := Image.toMemory s.img } .none none else .error s .noImage

/-- The state a `Cycle` that ended with an error leaves (rules R45, R88, R201): only
UnsupportedInstruction as an error has written `ir`. -/
def afterCycleFault (s : State) (f : Fault) : State :=
  match f with
  | .unsupportedInstruction _ _ =>
    match fetch s with
    | .ok t => t
    | .error _ => s
  | _ => s

/-- `Cycle` as an operation, with its event (rules R80, R88). -/
def cycleOp (s : State) : OpOutcome :=
  match step s with
  | .next t => .ok t .none t.report
  | .fault f => .error (afterCycleFault s f) f
  | .refused r => .refused r

/-- `Decode(s)` (rules R163, R169). The loader registers take part in it and hold no specified value
after it. -/
def decodeOp (stream : List Byte) (s : State) : OpOutcome :=
  match decodeStream params stream with
  | .ok d => .ok (decodeDone (scrambleLoader s) d.img d.ipc) (.ipc d.ipc) none
  | .error r => .error (loaderFailed s) (.formatError (some r))

/-- `DecodeRaw(s)` (rules R170, R169). It does not use the loader registers (rule R10). -/
def decodeRawOp (stream : List Byte) (s : State) : OpOutcome :=
  match decodeRawStream params stream with
  | .ok (g, entry) => .ok (decodeDone s g entry) (.ipc entry) none
  | .error r => .error (decodeFailed s) (.formatError (some r))

/-- `Encode` (rule R171). -/
def encodeOp (s : State) : OpOutcome :=
  if s.imgValid then .ok s (.bytes (Image.bytes s.img)) none else .error s .noImage

/-- `Observe` (rule R13): no side effect. -/
def observeOp (s : State) : OpOutcome :=
  .ok s (.observation { mem := Memory.bytes s.mem, x := s.x, ir := s.ir, pc := s.pc }) none

/-- `End` of the byte-serial loader (rule R177). -/
def loaderEndOp (s : State) : OpOutcome :=
  match s.ldr.ph with
  | .err => .error (loaderFailed s) (.formatError s.ldr.err)
  | .val => .error (loaderFailed s) (.formatError (some .truncatedPair))
  | .blk => .error (loaderFailed s) (.formatError (some .truncatedBlock))
  | .addr => .ok (loaderEnd s) (.ipc s.ipc) none

/-- A read of MEM by the host between operations (rule R14). -/
def hostReadOp (a : Byte) (s : State) : OpOutcome := .ok s (.byte (readMem s a)) none

/-- One operation, whole (rules R8, R10). -/
def perform : Operation → State → OpOutcome
  | .reset, s => .ok (resetOp s) .none none
  | .start, s => startOp s
  | .loadImage, s => loadImageOp s
  | .cycle, s => cycleOp s
  | .decode stream, s => decodeOp stream s
  | .decodeRaw stream, s => decodeRawOp stream s
  | .encode, s => encodeOp s
  | .observe, s => observeOp s
  | .loaderBegin, s => .ok (loaderBegin s) .none none
  | .loaderByte b, s => .ok (loaderByte params s b) .none none
  | .loaderEnd, s => loaderEndOp s
  | .hostRead a, s => hostReadOp a s
  | .hostWrite a v, s => .ok (writeMem s a v) .none none

/-- Operations in the order given, stopping at the first error (rules R11, R49). -/
def performAll : List Operation → State → OpOutcome
  | [], s => .ok s .none none
  | o :: os, s =>
    match perform o s with
    | .ok t _ _ => performAll os t
    | .error t f => .error t f
    | .refused r => .refused r

/-- What the host builds the image of a launch from: a pair-encoded stream or a raw dump (rules R11, R223). -/
inductive ImageSource where
  | pairs (stream : List Byte)
  | raw (stream : List Byte)
  deriving DecidableEq, Repr

/-- Step 2 of rule R223: `Decode(s)` or `DecodeRaw(s)`. -/
def ImageSource.op : ImageSource → Operation
  | .pairs stream => .decode stream
  | .raw stream => .decodeRaw stream

/-- The image and the entry point of the source, or why there is none (rules R163, R170). -/
def ImageSource.decoded : ImageSource → Except FormatReason (Image × Byte)
  | .pairs stream =>
    match decodeStream params stream with
    | .ok d => .ok (d.img, d.ipc)
    | .error r => .error r
  | .raw stream => decodeRawStream params stream

/-- The launch of rules R11 and R223, steps 1 to 4. -/
def launchOps (src : ImageSource) : List Operation := [.reset, src.op, .loadImage, .start]

/-- The launch with steps 1 and 2 exchanged, which rule R223 allows. -/
def launchOpsExchanged (src : ImageSource) : List Operation := [src.op, .reset, .loadImage, .start]

/-- The three ways a run ends, the third within the bound the host set (rule R225). -/
inductive RunEnd where
  /-- (a) the first `Cycle` that fetched a HALT has ended -/
  | halted (s : State)
  /-- (b) a `Cycle` ended with an error; `s` is the state it left -/
  | faulted (s : State) (f : Fault)
  /-- (c) neither happened in the Cycles the host allowed -/
  | stillRunning (s : State)
  deriving Repr

/-- The host's run loop, bounded by the host (rules R11, R85, R225): `Cycle`, then test `halted`. The
second component is the events reported, in order. -/
def runLoop : Nat → State → RunEnd × List Event
  | 0, s => (.stillRunning s, [])
  | k + 1, s =>
    match step s with
    | .next t =>
      if halted t then (.halted t, t.report.toList)
      else ((runLoop k t).1, t.report.toList ++ (runLoop k t).2)
    | .fault f => (.faulted (afterCycleFault s f) f, [])
    | .refused _ => (.stillRunning s, [])

/-- How a launch and its run end (rules R11, R223): step 2 stops on a FormatError, or the `Cycle`s run. -/
inductive LaunchEnd where
  | stopped (s : State) (f : Fault)
  | ran (e : RunEnd) (events : List Event)
  deriving Repr

/-- The launch and then `Cycle` repeated, `halted` tested after each, `k` times at most (rules R11, R223). -/
def launchRun (k : Nat) (src : ImageSource) (s : State) : LaunchEnd :=
  match performAll (launchOps src) s with
  | .ok t _ _ => .ran (runLoop k t).1 (runLoop k t).2
  | .error t f => .stopped t f
  | .refused _ => .ran (.stillRunning s) []

end Sys2Proof.Machine
end

