-- ==== Sys2Proof/Safety.lean ====
section
/-! DEFINITION. What counts as a well-formed state and as a safe run, and what an instruction leaves
unchanged, in the terms statements use. -/

namespace Sys2Proof.Machine

/-- A read of one cell of MEM. -/
def State.memAt (s : State) (a : Byte) : Byte := Memory.read s.mem a

/-- MEM and IMG are in their canonical forms: rising addresses below 256 (rules R26, R27). -/
def State.Wf (s : State) : Prop := Memory.wf s.mem = true ∧ Image.wf s.img = true

/-- The invariant of the byte-serial loader: an open block ends at or below address 255, so that
`dst` never passes it at a write (rule R176); the phase ERR goes with a sub-reason (rules R174, R177);
the count stays within the bound (rule R174). -/
def State.LoaderWf (P : Params) (s : State) : Prop :=
  (s.ldr.ph = .blk → 0 < s.ldr.rem.toNat ∧ s.ldr.dst.toNat + s.ldr.rem.toNat ≤ 256) ∧
  (s.ldr.ph = .err ↔ s.ldr.err.isSome = true) ∧
  s.ldr.cnt ≤ P.imgMaxStreamBytes

/-- A state whose next `Cycle` completes and reads no unspecified byte: every cell of MEM has been
written, as after a `LoadImage` (rules R32, R224), and the `pc` is not 255 (rule R227). -/
def State.Safe (s : State) : Prop := Memory.full s.mem ∧ s.pc ≠ 255#8

/-- `Observe` shows the same of two states (rule R13): the registers, `pc`, `ir` and every cell of MEM. -/
def State.ObservesSame (s t : State) : Prop :=
  (∀ i, readReg s i = readReg t i) ∧ s.pc = t.pc ∧ s.ir = t.ir ∧ ∀ a, s.memAt a = t.memAt a

/-- The loader's part of the state is the same: IMG, `ipc`, `img_valid`, its registers (rules R27, R28)
and the model's count of free values. -/
def State.SameLoader (s t : State) : Prop :=
  s.img = t.img ∧ s.ipc = t.ipc ∧ s.imgValid = t.imgValid ∧ s.ldr = t.ldr ∧ s.freeCtr = t.freeCtr

/-- From `s` to `t` nothing changed but the `pc` and the model's report: every register, `ir`, every
cell of MEM and the loader are as before. -/
def State.KeepsAll (s t : State) : Prop :=
  (∀ i, readReg t i = readReg s i) ∧ t.ir = s.ir ∧ (∀ a, t.memAt a = s.memAt a) ∧ s.SameLoader t

/-- From `s` to `t` the register `d` received `v`, and nothing else changed but the `pc` and the model's
report: every other register, `ir`, every cell of MEM and the loader are as before. -/
def State.WritesReg (s t : State) (d : RegNum) (v : Byte) : Prop :=
  readReg t d = v ∧ (∀ i, i ≠ d → readReg t i = readReg s i) ∧ t.ir = s.ir ∧
  (∀ a, t.memAt a = s.memAt a) ∧ s.SameLoader t

/-- From `s` to `t` the cell `a` of MEM received `v`, and nothing else changed but the `pc` and the
model's report: every register, `ir`, every other cell of MEM and the loader are as before. -/
def State.WritesMem (s t : State) (a v : Byte) : Prop :=
  t.memAt a = v ∧ (∀ b, b ≠ a → t.memAt b = s.memAt b) ∧ (∀ i, readReg t i = readReg s i) ∧
  t.ir = s.ir ∧ s.SameLoader t

/-- An instruction that writes the register `d` completes in `s`: `d` receives `v`, the `pc` advances by
2, no event is reported, and nothing else changes. -/
def CompletesWritingReg (i : Instr) (s : State) (d : RegNum) (v : Byte) : Prop :=
  ∃ t, exec i s = .next t ∧ s.WritesReg t d v ∧ t.pc = s.pc + 2#8 ∧ t.report = s.report

/-- An instruction that writes no register and no cell completes in `s` with the `pc` and the report
given, and nothing else changes. -/
def CompletesKeepingAll (i : Instr) (s : State) (pc : Byte) (report : Option Event) : Prop :=
  ∃ t, exec i s = .next t ∧ s.KeepsAll t ∧ t.pc = pc ∧ t.report = report

/-- An operation ended `Ok`, in the state `t`. -/
def OpOutcome.EndsOk (o : OpOutcome) (t : State) : Prop := ∃ r e, o = .ok t r e

/-- An operation ended with an error, in the state `t`. -/
def OpOutcome.EndsError (o : OpOutcome) (t : State) : Prop := ∃ f, o = .error t f

end Sys2Proof.Machine
end

