-- ==== Sys2Proof/Certificates/Slice0/Obligations.lean ====
section
/-! DEFINITION. The statements about the model, for the provers. Each docstring names the rule of spec/
a statement formalises, and says where a clause is the model's own choice. -/

open Sys2Proof Sys2Proof.Machine

/-! ### Encoding (spec/30_encoding.md) -/

/-- Rules R61, R62: the four nibbles, most significant first, and `lo = p2 || p3`. -/
def Obligations.WordIsItsFourNibbles : Prop :=
  ∀ w : Word,
    w.toNat = (opField w).toNat * 4096 + (p1Field w).toNat * 256 + (p2Field w).toNat * 16 + (p3Field w).toNat ∧
    loField w = p2Field w ++ p3Field w ∧
    w.toNat = (opField w).toNat * 4096 + (p1Field w).toNat * 256 + (loField w).toNat

/-- Rules R61 to R63, R65, R72: decoding and encoding are inverse in both directions, on words and on
bytes, in either byte order; so no bit of a word is dropped and no two rows overlap. -/
def Obligations.DecodeInvertsEncode : Prop :=
  (∀ i : Instr, decode (encode i) = i) ∧
  (∀ w : Word, encode (decode w) = w) ∧
  (∀ (P : Params) (i : Instr) (rest : List Byte), decodeBytes P (encodeBytes P i ++ rest) = .ok (i, rest))

/-- Rules R65, R72: the case is selected by `op = ir[15:12]` alone, for every one of the 65536 words. -/
def Obligations.OpcodeAloneSelectsTheCase : Prop :=
  ∀ w : Word, (decode w).opcode = opField w ∧
    ((decode w).opClass = .unsupported ↔ opField w = 0x0#4 ∨ opField w = 0xD#4 ∨ opField w = 0xF#4) ∧
    ((decode w).opClass = .reserved ↔ opField w = 0x4#4 ∨ opField w = 0x5#4 ∨ opField w = 0xE#4)

/-- Rule R73: the source's two worked encodings, with the bytes of the first, and a word of each other
format. -/
def Obligations.SpecWordsDecode : Prop :=
  decode 0x237F#16 = .loadLiteral 3#4 0x7F#8 ∧
  bytesOfWord params 0x237F#16 = (0x23#8, 0x7F#8) ∧
  (∀ p1 p2 : BitVec 4, decode (0xA#4 ++ p1 ++ p2 ++ 1#4) = .rotate p1 p2 1#4) ∧
  decode 0xA401#16 = .rotate 4#4 0#4 1#4 ∧
  decode 0x6312#16 = .addFloat 3#4 1#4 2#4 ∧
  decode 0x3380#16 = .storeMem 3#4 0x80#8 ∧
  decode 0xB11E#16 = .jumpIfEq 1#4 0x1E#8 ∧
  decode 0xC000#16 = .halt 0#12

/-- Rule R70: which words an assembler line other than `.word` produces. -/
def Obligations.AssemblerFormsAreTheCanonicalWords : Prop :=
  ∀ w : Word, (decode w).canonical = true ↔
    (opField w ≠ 0x0#4 ∧ opField w ≠ 0xD#4 ∧ opField w ≠ 0xF#4) ∧
    (opField w = 0x4#4 ∨ opField w = 0x5#4 ∨ opField w = 0xC#4 ∨ opField w = 0xE#4 → low12Field w = 0#12) ∧
    (opField w = 0xA#4 → p2Field w = 0#4)

/-- Rule R68: an ignored field takes any value, no value of it changes the effect, is reserved or
faults; every word `0xCnnn` halts. -/
def Obligations.IgnoredFieldsHaveNoEffect : Prop :=
  (∀ (m n : Low12) (s : State),
    (∃ t, exec (.halt n) s = .next t) ∧ exec (.halt m) s = exec (.halt n) s ∧
    (∃ t, exec (.copyReg n) s = .next t) ∧ exec (.copyReg m) s = exec (.copyReg n) s ∧
    (∃ t, exec (.addInt n) s = .next t) ∧ exec (.addInt m) s = exec (.addInt n) s ∧
    (∃ t, exec (.extension n) s = .next t) ∧ exec (.extension m) s = exec (.extension n) s ∧
    (∃ t, exec (.unsupported0 n) s = .next t) ∧ exec (.unsupported0 m) s = exec (.unsupported0 n) s ∧
    (∃ t, exec (.unsupportedD n) s = .next t) ∧ exec (.unsupportedD m) s = exec (.unsupportedD n) s ∧
    (∃ t, exec (.unsupportedF n) s = .next t) ∧ exec (.unsupportedF m) s = exec (.unsupportedF n) s) ∧
  (∀ (d p p' c c' : BitVec 4) (s : State), c.toNat % 8 = c'.toNat % 8 →
    (∃ t, exec (.rotate d p c) s = .next t) ∧ exec (.rotate d p c) s = exec (.rotate d p' c') s) ∧
  (∀ n : Low12, isHalt params (0xC#4 ++ n) = true)

/-! ### The instructions (spec/41 to 45) -/

/-- Rule R90, LOAD-MEM: word `0x1raa`; `x[p1] <- MemRead(lo, 1)`, for every address and every register, the
entry-point byte and the instruction's own bytes included; MEM is unchanged. -/
def Obligations.LoadMemCopiesTheCell : Prop :=
  ∀ (r : RegNum) (a : Byte),
    (encode (.loadMem r a)).toNat = 0x1000 + r.toNat * 256 + a.toNat ∧
    ∀ s : State, CompletesWritingReg (.loadMem r a) s r (s.memAt a)

/-- Rule R91, LOAD-LITERAL: word `0x2rvv`; `x[p1] <- lo`, neither extended nor interpreted. -/
def Obligations.LoadLiteralWritesTheLiteral : Prop :=
  ∀ (r : RegNum) (v : Byte),
    (encode (.loadLiteral r v)).toNat = 0x2000 + r.toNat * 256 + v.toNat ∧
    decode 0x237F#16 = .loadLiteral 3#4 0x7F#8 ∧
    ∀ s : State, CompletesWritingReg (.loadLiteral r v) s r v

/-- Rule R92, STORE-MEM: word `0x3raa`; `MemWrite(lo, 1, x[p1])` at the absolute address `lo`, any
address, the instruction's own bytes and the entry-point byte included; `ir` keeps the fetched word and
IMG is never changed; and any later fetch that reads the cell, while it is not written again, is of the
stored byte, as the high or as the low byte of the word. -/
def Obligations.StoreMemWritesTheCell : Prop :=
  ∀ (r : RegNum) (a : Byte),
    (encode (.storeMem r a)).toNat = 0x3000 + r.toNat * 256 + a.toNat ∧
    ∀ s : State, ∃ t, exec (.storeMem r a) s = .next t ∧ s.WritesMem t a (readReg s r) ∧
      t.pc = s.pc + 2#8 ∧ t.report = s.report ∧
      ∀ u : State, u.memAt a = t.memAt a → u.pc ≠ 255#8 →
        (u.pc = a → fetchWord params u = .ok (readReg s r ++ u.memAt (u.pc + 1#8))) ∧
        (u.pc + 1#8 = a → fetchWord params u = .ok (u.memAt u.pc ++ readReg s r))

/-- Rules R100, R101, R102: COPY-REG, ADD-INT and EXTENSION have no register or memory effect and
report no event, whatever their low twelve bits are; `pc` advances by 2. -/
def Obligations.ReservedOpcodesDoNothing : Prop :=
  ∀ (n : Low12),
    (encode (.copyReg n)).toNat = 0x4000 + n.toNat ∧
    (encode (.addInt n)).toNat = 0x5000 + n.toNat ∧
    (encode (.extension n)).toNat = 0xE000 + n.toNat ∧
    ∀ s : State,
      CompletesKeepingAll (.copyReg n) s (s.pc + 2#8) s.report ∧
      CompletesKeepingAll (.addInt n) s (s.pc + 2#8) s.report ∧
      CompletesKeepingAll (.extension n) s (s.pc + 2#8) s.report

/-- Rule R67 (the pseudocode is that of rules R103, R104 and R105): the opcodes 0x0, 0xD and 0xF report
UnsupportedInstruction with the opcode and the address of the instruction, and are otherwise no-ops; the
all-zero word is one of them, neither a no-op without report nor a halt. -/
def Obligations.UnsupportedOpcodesReportAndContinue : Prop :=
  ∀ (n : Low12),
    (encode (.unsupported0 n)).toNat = n.toNat ∧
    (encode (.unsupportedD n)).toNat = 0xD000 + n.toNat ∧
    (encode (.unsupportedF n)).toNat = 0xF000 + n.toNat ∧
    decode 0x0000#16 = .unsupported0 0#12 ∧ isHalt params 0x0000#16 = false ∧
    ∀ s : State,
      CompletesKeepingAll (.unsupported0 n) s (s.pc + 2#8) (some (.unsupportedInstruction 0x0#4 s.pc)) ∧
      CompletesKeepingAll (.unsupportedD n) s (s.pc + 2#8) (some (.unsupportedInstruction 0xD#4 s.pc)) ∧
      CompletesKeepingAll (.unsupportedF n) s (s.pc + 2#8) (some (.unsupportedInstruction 0xF#4 s.pc))

/-- Rule R127, ADD-FLOAT: word `0x6dst`; `x[p1] <- MfAdd(x[p2], x[p3])`, both sources read before the
destination is written; MfAdd is total, so there is no exception; doubling a non-zero operand of
exponent field below 7 raises the exponent by one and keeps sign and mantissa. -/
def Obligations.AddFloatWritesTheSum : Prop :=
  ∀ (d p q : RegNum),
    (encode (.addFloat d p q)).toNat = 0x6000 + d.toNat * 256 + p.toNat * 16 + q.toNat ∧
    ∀ s : State, ∃ v, mfAdd params (readReg s p) (readReg s q) = some v ∧
      CompletesWritingReg (.addFloat d p q) s d v ∧
      (p = q → readReg s p ≠ 0x00#8 → mfExp (readReg s p) < 7 → v = readReg s p + 0x10#8)

/-- Rule R140, OR: word `0x7dst`; bit by bit; with equal sources the machine's register move. -/
def Obligations.OrWritesBitwiseOr : Prop :=
  ∀ (d p q : RegNum),
    (encode (.orReg d p q)).toNat = 0x7000 + d.toNat * 256 + p.toNat * 16 + q.toNat ∧
    ∀ s : State, ∃ v : Byte, CompletesWritingReg (.orReg d p q) s d v ∧
      (∀ i : Nat, v.getLsbD i = ((readReg s p).getLsbD i || (readReg s q).getLsbD i)) ∧
      (p = q → v = readReg s p)

/-- Rule R141, AND: word `0x8dst`; bit by bit; with equal sources a register move. -/
def Obligations.AndWritesBitwiseAnd : Prop :=
  ∀ (d p q : RegNum),
    (encode (.andReg d p q)).toNat = 0x8000 + d.toNat * 256 + p.toNat * 16 + q.toNat ∧
    ∀ s : State, ∃ v : Byte, CompletesWritingReg (.andReg d p q) s d v ∧
      (∀ i : Nat, v.getLsbD i = ((readReg s p).getLsbD i && (readReg s q).getLsbD i)) ∧
      (p = q → v = readReg s p) ∧ (readReg s q = 0x00#8 → v = 0x00#8)

/-- Rule R142, XOR: word `0x9dst`; bit by bit; with equal sources it clears; with 0x80 it flips the
minifloat's sign bit alone; with 0xFF it complements. -/
def Obligations.XorWritesBitwiseXor : Prop :=
  ∀ (d p q : RegNum),
    (encode (.xorReg d p q)).toNat = 0x9000 + d.toNat * 256 + p.toNat * 16 + q.toNat ∧
    ∀ s : State, ∃ v : Byte, CompletesWritingReg (.xorReg d p q) s d v ∧
      (∀ i : Nat, v.getLsbD i = ((readReg s p).getLsbD i ^^ (readReg s q).getLsbD i)) ∧
      (p = q → v = 0x00#8) ∧ (readReg s q = 0xFF#8 → v = ~~~ readReg s p) ∧
      (readReg s q = 0x80#8 → mfSign v = !mfSign (readReg s p) ∧
        mfExp v = mfExp (readReg s p) ∧ mfMant v = mfMant (readReg s p))

/-- Rule R143, ROTATE: format RC; bit `i` of the result is bit `(i + p3 mod 8) mod 8` of the old value;
counts 0 and 8 leave the register unchanged; 0x00 and 0xFF are fixed points. -/
def Obligations.RotateMovesEveryBitRight : Prop :=
  ∀ (d ign c : BitVec 4),
    (encode (.rotate d ign c)).toNat = 0xA000 + d.toNat * 256 + ign.toNat * 16 + c.toNat ∧
    ∀ s : State, ∃ v : Byte, CompletesWritingReg (.rotate d ign c) s d v ∧
      (∀ i : Nat, i < 8 → v.getLsbD i = (readReg s d).getLsbD ((i + c.toNat % 8) % 8)) ∧
      (c = 0#4 ∨ c = 8#4 → v = readReg s d) ∧
      (readReg s d = 0x00#8 ∨ readReg s d = 0xFF#8 → v = readReg s d)

/-- Rules R150, R71, JUMP-IF-EQ: word `0xBrtt`; taken, `pc` becomes exactly `lo`; not taken, it advances
by 2; nothing but `pc` changes; the comparison is of all eight bits; a jump to 255 completes and the
next Cycle is FetchOutOfBounds; `JUMP 0xNN` is `0xB0NN`, which is always taken. -/
def Obligations.JumpIfEqSetsOnlyThePc : Prop :=
  ∀ (r : RegNum) (t : Byte),
    (encode (.jumpIfEq r t)).toNat = 0xB000 + r.toNat * 256 + t.toNat ∧
    (encode (Instr.jump t)).toNat = 0xB000 + t.toNat ∧
    ∀ s : State,
      (readReg s r = readReg s 0#4 → CompletesKeepingAll (.jumpIfEq r t) s t s.report) ∧
      (readReg s r ≠ readReg s 0#4 → CompletesKeepingAll (.jumpIfEq r t) s (s.pc + 2#8) s.report) ∧
      CompletesKeepingAll (Instr.jump t) s t s.report ∧
      (∀ u, exec (.jumpIfEq r t) s = .next u → u.pc = 255#8 → step u = .fault (.fetchOutOfBounds 255#8))

/-- Rule R151, HALT: every word `0xCnnn` leaves every register, `pc` and MEM unchanged, and after the
Cycle that fetched it `halted` holds, and a further Cycle executes the same HALT again. -/
def Obligations.HaltKeepsEverything : Prop :=
  ∀ n : Low12,
    (encode (.halt n)).toNat = 0xC000 + n.toNat ∧
    (∀ s : State, CompletesKeepingAll (.halt n) s s.pc s.report) ∧
    (∀ s : State, fetchWord params s = .ok (encode (.halt n)) →
      ∃ t, step s = .next t ∧ halted t = true ∧ t.ir = encode (.halt n) ∧ t.pc = s.pc ∧
        (∀ i, readReg t i = readReg s i) ∧ (∀ a, t.memAt a = s.memAt a) ∧ step t = .next t)

/-! ### The Cycle (spec/40_cycle.md) -/

/-- Rules R80 to R82, R42: wherever the `pc` is not 255, a step is the execution of the instruction that
the two bytes at `pc` decode to, in the state whose `ir` holds the word (high byte first) and which differs
from the state before in `ir` and in the model's own report alone. -/
def Obligations.StepRunsTheDecodedInstruction : Prop :=
  ∀ (s : State) (i : Instr),
    s.pc ≠ 255#8 → decodeBytes params [s.memAt s.pc, s.memAt (s.pc + 1#8)] = .ok (i, []) →
    step s = exec i { s with ir := s.memAt s.pc ++ s.memAt (s.pc + 1#8), report := none }

/-- Rule R205: FetchOutOfBounds is raised when `pc = 255`, whatever MEM holds; no state changes at all, so it
recurs on every `Cycle`. -/
def Obligations.FetchAtTheTopFaults : Prop :=
  ∀ s : State, s.pc = 255#8 →
    step s = .fault (.fetchOutOfBounds 255#8) ∧
    perform .cycle s = .error s (.fetchOutOfBounds 255#8) ∧
    perform .cycle ((perform .cycle s).stateOr s) = .error s (.fetchOutOfBounds 255#8)

/-- Rules R81, R84: after a Cycle `ir` holds the two bytes at the old `pc`, high byte first, whatever the
opcode; and the `pc` is what the fetched opcode and the registers before it give, wrapping modulo 256. -/
def Obligations.IrAndPcAfterACycle : Prop :=
  ∀ s t : State, step s = .next t →
    s.pc ≠ 255#8 ∧ t.ir = s.memAt s.pc ++ s.memAt (s.pc + 1#8) ∧
    t.pc = (if opField t.ir = 0xC#4 then s.pc
      else if opField t.ir = 0xB#4 ∧ readReg s (p1Field t.ir) = readReg s 0#4 then loField t.ir
      else BitVec.ofNat 8 ((s.pc.toNat + 2) % 256))

/-- Rules R87, R20, R21, R54: a Cycle writes at most one of one register and one cell of MEM; the
register is the one `p1` names, and only LOAD-MEM, LOAD-LITERAL, ADD-FLOAT, OR, AND, XOR and ROTATE change
it; the cell is the one `lo` names, and only STORE-MEM changes it; the loader's state never changes. -/
def Obligations.CycleWritesAtMostOnePlace : Prop :=
  ∀ s t : State, step s = .next t →
    ((∀ i, i ≠ p1Field t.ir → readReg t i = readReg s i) ∧ (∀ a, t.memAt a = s.memAt a) ∨
     (∀ i, readReg t i = readReg s i) ∧ (∀ a, a ≠ loField t.ir → t.memAt a = s.memAt a)) ∧
    ((∃ i, readReg t i ≠ readReg s i) →
      opField t.ir = 0x1#4 ∨ opField t.ir = 0x2#4 ∨ opField t.ir = 0x6#4 ∨ opField t.ir = 0x7#4 ∨
      opField t.ir = 0x8#4 ∨ opField t.ir = 0x9#4 ∨ opField t.ir = 0xA#4) ∧
    ((∃ a, t.memAt a ≠ s.memAt a) → opField t.ir = 0x3#4) ∧
    s.SameLoader t

/-- Rules R88, R204: a Cycle reports an event exactly when the opcode it fetched is 0x0, 0xD or 0xF, and then the
event is that opcode at the `pc` before the Cycle; the operation `Cycle` hands it to the host. -/
def Obligations.CycleReportsUnsupportedOpcodes : Prop :=
  ∀ s t : State, step s = .next t →
    (t.report = if opField t.ir = 0x0#4 ∨ opField t.ir = 0xD#4 ∨ opField t.ir = 0xF#4
      then some (.unsupportedInstruction (opField t.ir) s.pc) else none) ∧
    perform .cycle s = .ok t .none t.report

/-- Rules R24, R85, R86: after a Cycle `halted` holds exactly when the opcode fetched in that Cycle is
0xC, so a taken jump does not halt, wherever it goes; a halting Cycle leaves `pc`; and a further Cycle right
after it fetches the same HALT and changes nothing at all. -/
def Obligations.HaltedDependsOnTheFetchedOpcode : Prop :=
  ∀ s t : State, step s = .next t →
    (halted t = true ↔ ∃ n, decode t.ir = .halt n) ∧
    (opField t.ir = 0xB#4 → halted t = false) ∧
    (halted t = true → t.pc = s.pc ∧ step t = .next t)

/-- Rules R52, R227: a store is seen by the very next fetch, of either byte, with no fence; and a store
into the executing instruction's own bytes leaves `ir` as it was. -/
def Obligations.StoreIsSeenByTheNextFetch : Prop :=
  ∀ (s t : State) (r : RegNum) (a : Byte), exec (.storeMem r a) s = .next t → s.pc ≠ 253#8 →
    t.ir = s.ir ∧
    (a = s.pc + 2#8 →
      step t = exec (decode (readReg s r ++ s.memAt (s.pc + 3#8)))
        { t with ir := readReg s r ++ s.memAt (s.pc + 3#8), report := none }) ∧
    (a = s.pc + 3#8 →
      step t = exec (decode (s.memAt (s.pc + 2#8) ++ readReg s r))
        { t with ir := s.memAt (s.pc + 2#8) ++ readReg s r, report := none })

/-- Rules R88, R201, R207: what a Cycle can end with, and when: it completes wherever the `pc` is not 255,
and under the decided parameters there is no other outcome than FetchOutOfBounds. -/
def Obligations.CycleOutcomes : Prop :=
  ∀ s : State,
    (s.pc ≠ 255#8 → ∃ t, step s = .next t) ∧
    (s.pc = 255#8 → step s = .fault (.fetchOutOfBounds 255#8))

/-- Rules R32, R33, R224: which cells of MEM have been written. A `LoadImage` writes them all, and no
operation makes a written cell unwritten; so once an image is loaded every read of MEM is of a byte that
was written, every `Cycle` with `pc` other than 255 completes, and no unspecified byte is read again. -/
def Obligations.WrittenCellsStayWritten : Prop :=
  (∀ (s t : State), (perform .loadImage s).EndsOk t → Memory.full t.mem) ∧
  (∀ (o : Operation) (s : State) (a : Byte), Memory.written s.mem a = true →
    Memory.written ((perform o s).stateOr s).mem a = true) ∧
  (∀ (s : State) (a : Byte), Memory.written s.mem a = true → (a.toNat, s.memAt a) ∈ s.mem) ∧
  (∀ s : State, s.Safe → ∃ t, step s = .next t ∧ Memory.full t.mem)

/-- Rule R30: the whole state of the processor is `(x, pc, ir, MEM)`, and no instruction reads `ir` as
data (rule R23): two states with the same registers, `pc` and cells of MEM, whatever their `ir` and their
loader, take the same step, with the same event. -/
def Obligations.CycleDependsOnTheProcessorAlone : Prop :=
  ∀ s u : State, (∀ i, readReg s i = readReg u i) → s.pc = u.pc → (∀ a, s.memAt a = u.memAt a) →
    (∀ t, step s = .next t → ∃ v, step u = .next v ∧ t.ObservesSame v ∧ t.report = v.report) ∧
    (∀ f, step s = .fault f → step u = .fault f)

/-! ### Invariants -/

/-- Rules R26, R27, R33 (the canonical form is the model's, assumption log 1): every Cycle and every operation of
the host keeps MEM and IMG in their canonical forms. -/
def Obligations.CanonicalFormsAreKept : Prop :=
  (∀ s t : State, s.Wf → step s = .next t → t.Wf) ∧
  (∀ (o : Operation) (s : State), s.Wf → ((perform o s).stateOr s).Wf)

/-- The state after reset meets the invariants of `CanonicalFormsAreKept` and of
`LoaderKeepsItsBlockInBounds` (the loader registers' values at reset are the MODEL'S CHOICE, assumption
log 2). -/
def Obligations.ResetIsCanonical : Prop := State.reset.Wf ∧ State.reset.LoaderWf params

/-- Rules R174, R176, R177: `Begin` establishes the loader's invariant, and every `Byte` and every
operation keeps it, but for the function form of `Decode` and a failed `End`, which leave the loader
registers free (assumption log 5). The invariant: an open block has bytes left and ends at or below
address 255, the phase ERR goes with a sub-reason, and the count stays within the bound. -/
def Obligations.LoaderKeepsItsBlockInBounds : Prop :=
  (∀ s : State, (loaderBegin s).LoaderWf params) ∧
  (∀ (s : State) (b : Byte), s.LoaderWf params → (loaderByte params s b).LoaderWf params) ∧
  (∀ (o : Operation) (s : State), (∀ stream, o ≠ .decode stream) → (o = .loaderEnd → s.ldr.ph = .addr) →
    s.LoaderWf params →
    ((perform o s).stateOr s).LoaderWf params)

/-! ### Reset, Start, LoadImage, launch (spec/46, spec/70) -/

/-- Rules R31, R24, R32: after power-up and `Reset` the registers, `pc` and `ir` are zero, the processor
is not halted, `img_valid` is false and no cell of MEM has been written (so that each holds the free value
of assumption log 1, of which nothing is stated). -/
def Obligations.StateAfterReset : Prop :=
  (∀ i, readReg State.reset i = 0x00#8) ∧ State.reset.pc = 0x00#8 ∧ State.reset.ir = 0x0000#16 ∧
  halted State.reset = false ∧ State.reset.imgValid = false ∧
  ∀ a, Memory.written State.reset.mem a = false

/-- Rule R220: `Reset` zeroes the registers, `ir` and `pc` and writes nothing else. -/
def Obligations.ResetWritesNothingElse : Prop :=
  ∀ s : State, ∃ t, perform .reset s = .ok t .none none ∧
    (∀ i, readReg t i = 0x00#8) ∧ t.ir = 0x0000#16 ∧ t.pc = 0x00#8 ∧
    t.mem = s.mem ∧ s.SameLoader t ∧ t.report = s.report

/-- Rule R180: `Start` reads `MEM[0]` as it is at that moment and writes only `pc`; `halted` keeps its
value. It always ends `Ok` (rule R10). -/
def Obligations.StartTakesTheEntryPoint : Prop :=
  ∀ s : State, ∃ t, perform .start s = .ok t .none none ∧ t.pc = s.memAt 0x00#8 ∧
    s.KeepsAll t ∧ halted t = halted s ∧ t.report = s.report

/-- Rule R179: `LoadImage` copies all 256 cells of IMG into MEM and writes nothing else; without a valid
image it ends with NoImage and nothing changes. -/
def Obligations.LoadImageCopiesEveryCell : Prop :=
  ∀ s : State,
    (s.imgValid = true → ∃ t, perform .loadImage s = .ok t .none none ∧
      (∀ a, t.memAt a = Image.read s.img a) ∧
      (∀ i, readReg t i = readReg s i) ∧ t.pc = s.pc ∧ t.ir = s.ir ∧ s.SameLoader t ∧ t.report = s.report) ∧
    (s.imgValid = false → perform .loadImage s = .error s .noImage)

/-- Rules R20, R22, R23, R26: which operations write the registers, `ir`, `pc` and MEM. -/
def Obligations.OnlyTheseOperationsWriteTheProcessor : Prop :=
  ∀ (o : Operation) (s : State),
    (o ≠ .cycle → o ≠ .reset →
      ((perform o s).stateOr s).x = s.x ∧ ((perform o s).stateOr s).ir = s.ir) ∧
    (o ≠ .cycle → o ≠ .reset → o ≠ .start → ((perform o s).stateOr s).pc = s.pc) ∧
    (o ≠ .cycle → o ≠ .loadImage → (∀ a v, o ≠ .hostWrite a v) →
      ((perform o s).stateOr s).mem = s.mem)

/-- Rules R11, R223: after the launch sequence, from a pair-encoded stream or from a raw dump, with steps 1
and 2 in either order, the registers and `ir` are zero, `pc = IMG[0]` and MEM is the image, all of it
written; it ends `Ok` exactly when the source decodes, and else with its FormatError. -/
def Obligations.LaunchState : Prop :=
  ∀ (src : ImageSource) (ops : List Operation) (s : State), ops = launchOps src ∨ ops = launchOpsExchanged src →
    (∀ t, (performAll ops s).EndsOk t →
      (∀ i, readReg t i = 0x00#8) ∧ t.ir = 0x0000#16 ∧ t.pc = Image.read t.img 0x00#8 ∧
      (∀ a, t.memAt a = Image.read t.img a) ∧ Memory.full t.mem) ∧
    (∀ g entry, src.decoded = .ok (g, entry) →
      ∃ t, (performAll ops s).EndsOk t ∧ t.img = g ∧ t.ipc = entry) ∧
    (∀ r, src.decoded = .error r → ∃ t, performAll ops s = .error t (.formatError (some r)))

/-- Rules R13, R14, R41: `Observe` has no side effect and shows the processor's state, every cell of MEM
included; a host write changes one cell; and a host read returns the cell, whatever wrote it, and changes
nothing. -/
def Obligations.HostAccessesBetweenOperations : Prop :=
  ∀ (s : State) (a v : Byte),
    (∃ bs : List Byte, bs.length = 256 ∧ (∀ b : Byte, bs[b.toNat]? = some (s.memAt b)) ∧
      perform .observe s = .ok s (.observation { mem := bs, x := s.x, ir := s.ir, pc := s.pc }) none) ∧
    perform (.hostRead a) s = .ok s (.byte (s.memAt a)) none ∧
    (∃ t, perform (.hostWrite a v) s = .ok t .none none ∧ s.WritesMem t a v ∧ t.pc = s.pc ∧
      t.report = s.report)

/-! ### The loader (spec/46_image_loader.md) -/

/-- Rule R173: `Begin` initialises the loader, and changes nothing of the processor. -/
def Obligations.BeginInitialisesTheLoader : Prop :=
  ∀ s : State, ∃ t, perform .loaderBegin s = .ok t .none none ∧
    (∀ a, Image.read t.img a = 0x00#8) ∧ t.ipc = 0x00#8 ∧ t.ldr.pcSet = false ∧ t.ldr.cnt = 0 ∧
    t.ldr.ph = .addr ∧ t.imgValid = false ∧ t.ldr.err = none ∧ s.ObservesSame t ∧ t.report = s.report

/-- Rule R174: a byte in the phase ERR is ignored; byte number 513 is a StreamTooLong and is ignored
otherwise; any other byte is counted, and in the phase ADDR it is latched as the address of a pair. -/
def Obligations.ByteIsCountedAndLatched : Prop :=
  ∀ (s : State) (b : Byte), ∃ t, perform (.loaderByte b) s = .ok t .none none ∧
    (s.ldr.ph = .err → t = s) ∧
    (s.ldr.ph ≠ .err → s.ldr.cnt = 512 →
      t = { s with ldr := { s.ldr with ph := .err, err := some .streamTooLong } }) ∧
    (s.ldr.ph ≠ .err → s.ldr.cnt ≠ 512 → t.ldr.cnt = s.ldr.cnt + 1) ∧
    (s.ldr.ph = .addr → s.ldr.cnt ≠ 512 →
      t = { s with ldr := { s.ldr with cnt := s.ldr.cnt + 1, aLat := b, ph := .val } })

/-- Rule R175: what a byte in the phase VAL does, with `a = a_lat` and `v = b`: the program-counter
pair, a block directive out of range, of no bytes or of some, or a plain write. -/
def Obligations.ValueByteEndsThePair : Prop :=
  ∀ (s : State) (v : Byte), s.ldr.ph = .val → s.ldr.cnt ≠ 512 →
    ∃ t, perform (.loaderByte v) s = .ok t .none none ∧ s.ObservesSame t ∧ t.imgValid = s.imgValid ∧
    (s.ldr.aLat = 0x00#8 ∧ s.ldr.pcSet = false →
      t.ipc = v ∧ t.ldr.pcSet = true ∧ t.ldr.ph = .addr ∧
      ∀ b, Image.read t.img b = if b = 0x00#8 then v else Image.read s.img b) ∧
    (s.ldr.pcSet = true ∧ s.ldr.aLat = s.ipc →
      t.ipc = s.ipc ∧ t.ldr.pcSet = true ∧ (∀ b, Image.read t.img b = Image.read s.img b) ∧
      (256 < s.ldr.aLat.toNat + v.toNat → t.ldr.ph = .err ∧ t.ldr.err = some .blockPastMemory) ∧
      (s.ldr.aLat.toNat + v.toNat ≤ 256 → v = 0x00#8 → t.ldr.ph = .addr) ∧
      (s.ldr.aLat.toNat + v.toNat ≤ 256 → v ≠ 0x00#8 →
        t.ldr.dst = s.ldr.aLat ∧ t.ldr.rem = v ∧ t.ldr.ph = .blk)) ∧
    (¬ (s.ldr.aLat = 0x00#8 ∧ s.ldr.pcSet = false) → ¬ (s.ldr.pcSet = true ∧ s.ldr.aLat = s.ipc) →
      t.ipc = s.ipc ∧ t.ldr.pcSet = s.ldr.pcSet ∧ t.ldr.ph = .addr ∧
      ∀ b, Image.read t.img b = if b = s.ldr.aLat then v else Image.read s.img b)

/-- Rule R176: what a byte in the phase BLK does; after the last byte of a block the phase is ADDR, and
`dst` wraps from 255 to 0. -/
def Obligations.BlockByteIsCopied : Prop :=
  ∀ (s : State) (v : Byte), s.ldr.ph = .blk → s.ldr.cnt ≠ 512 →
    ∃ t, perform (.loaderByte v) s = .ok t .none none ∧ s.ObservesSame t ∧
      (∀ b, Image.read t.img b = if b = s.ldr.dst then v else Image.read s.img b) ∧
      t.ldr.dst = BitVec.ofNat 8 ((s.ldr.dst.toNat + 1) % 256) ∧
      t.ldr.rem = s.ldr.rem - 1#8 ∧
      (s.ldr.rem = 1#8 → t.ldr.ph = .addr) ∧ (s.ldr.rem ≠ 1#8 → t.ldr.ph = .blk) ∧
      t.ipc = s.ipc ∧ t.ldr.pcSet = s.ldr.pcSet ∧ t.imgValid = s.imgValid

/-- Rules R177, R169: the outcome of `End` by the phase; `img_valid` becomes true where it is `Ok`, and
nothing else changes there; it is false where it is an error. The processor never changes. That
`img_valid` is false after a failed `End` even where it was true before it (a `Byte` with no `Begin`) is the
MODEL'S CHOICE (assumption log 9): rule R177 says only that it stays false. -/
def Obligations.EndOutcomeByPhase : Prop :=
  ∀ s : State, ∃ t, s.ObservesSame t ∧ t.report = s.report ∧
    (s.ldr.ph = .addr → perform .loaderEnd s = .ok t (.ipc s.ipc) none ∧ t = { s with imgValid := true }) ∧
    (s.ldr.ph = .err → perform .loaderEnd s = .error t (.formatError s.ldr.err) ∧ t.imgValid = false) ∧
    (s.ldr.ph = .val →
      perform .loaderEnd s = .error t (.formatError (some .truncatedPair)) ∧ t.imgValid = false) ∧
    (s.ldr.ph = .blk →
      perform .loaderEnd s = .error t (.formatError (some .truncatedBlock)) ∧ t.imgValid = false)

/-- Rule R178: for every byte sequence and every state, the byte-serial machine ends `Ok` exactly when
`Decode` does, and then both leave the same IMG and the same `ipc`. -/
def Obligations.SerialLoaderAgreesWithDecode : Prop :=
  ∀ (stream : List Byte) (s u : State),
    ((∃ t, (performAll ([.loaderBegin] ++ stream.map .loaderByte) s).EndsOk t ∧
        ∃ t', (perform .loaderEnd t).EndsOk t') ↔
      (∃ v, (perform (.decode stream) u).EndsOk v)) ∧
    (∀ t t' v, (performAll ([.loaderBegin] ++ stream.map .loaderByte) s).EndsOk t →
      (perform .loaderEnd t).EndsOk t' → (perform (.decode stream) u).EndsOk v →
      t'.img = v.img ∧ t'.ipc = v.ipc ∧ t'.imgValid = true ∧ v.imgValid = true)

/-- Rules R169, R177: a failed decode, of either format and in either form, leaves MEM, the registers, `pc`
and `ir` as they were and the image invalid, so that `LoadImage` refuses it. That `img_valid` is false after
a failed `End` even where it was true before it (a `Byte` with no `Begin`) is the MODEL'S CHOICE (assumption
log 9): rule R177 says only that it stays false. -/
def Obligations.FailedDecodeIsInvisible : Prop :=
  ∀ (o : Operation) (s t : State) (f : Fault),
    (∃ stream, o = .decode stream ∨ o = .decodeRaw stream) ∨ o = .loaderEnd →
    perform o s = .error t f →
    (∃ r, f = .formatError r) ∧ t.x = s.x ∧ t.pc = s.pc ∧ t.ir = s.ir ∧ t.mem = s.mem ∧
    t.imgValid = false ∧ perform .loadImage t = .error t .noImage ∧ perform .encode t = .error t .noImage

/-- Rule R167: the two worked decodes of the source, cell by cell, and the empty stream of rule R162. -/
def Obligations.WorkedDecodes : Prop :=
  (∃ d, decodeStream params [0x00#8, 0x10#8, 0x05#8, 0xAA#8] = .ok d ∧ d.ipc = 0x10#8 ∧
    ∀ a : Byte, Image.read d.img a = if a = 0x00#8 then 0x10#8 else if a = 0x05#8 then 0xAA#8 else 0x00#8) ∧
  (∃ d, decodeStream params [0x00#8, 0x02#8, 0x02#8, 0x03#8, 0x11#8, 0x22#8, 0x33#8] = .ok d ∧ d.ipc = 0x02#8 ∧
    ∀ a : Byte, Image.read d.img a = if a = 0x00#8 then 0x02#8 else if a = 0x02#8 then 0x11#8
      else if a = 0x03#8 then 0x22#8 else if a = 0x04#8 then 0x33#8 else 0x00#8) ∧
  (∃ d, decodeStream params [] = .ok d ∧ d.ipc = 0x00#8 ∧ ∀ a : Byte, Image.read d.img a = 0x00#8)

/-- Rules R164 to R166: what one pair does to an image under construction: the first pair with address
0 sets the entry point and writes cell 0, every later pair at the entry point opens a block, every other
pair is a plain write; after the last pair the image stands; and the loop's bound never runs out. -/
def Obligations.DecodeTakesOnePairAtATime : Prop :=
  ∀ (n : Nat) (a v : Byte) (rest : List Byte) (d : Decoded),
    (a = 0x00#8 ∧ d.pcSet = false →
      ∃ d', d'.ipc = v ∧ d'.pcSet = true ∧
        (∀ b, Image.read d'.img b = if b = 0x00#8 then v else Image.read d.img b) ∧
        decodePairs (n + 1) (a :: v :: rest) d = decodePairs n rest d') ∧
    (d.pcSet = true ∧ a = d.ipc → a.toNat + v.toNat ≤ 256 → v.toNat ≤ rest.length →
      ∃ d', d'.ipc = d.ipc ∧ d'.pcSet = true ∧
        (∀ b : Byte, Image.read d'.img b =
          if h : a.toNat ≤ b.toNat ∧ b.toNat < a.toNat + v.toNat ∧ b.toNat - a.toNat < rest.length
          then rest[b.toNat - a.toNat]'h.2.2 else Image.read d.img b) ∧
        decodePairs (n + 1) (a :: v :: rest) d = decodePairs n (rest.drop v.toNat) d') ∧
    (¬ (a = 0x00#8 ∧ d.pcSet = false) → ¬ (d.pcSet = true ∧ a = d.ipc) →
      ∃ d', d'.ipc = d.ipc ∧ d'.pcSet = d.pcSet ∧
        (∀ b, Image.read d'.img b = if b = a then v else Image.read d.img b) ∧
        decodePairs (n + 1) (a :: v :: rest) d = decodePairs n rest d') ∧
    decodePairs n [] d = .ok d ∧
    (rest.length ≤ n → decodePairs n rest d = decodePairs rest.length rest d)

/-- Rule R168: the four sub-reasons of a format error: a stream over 512 bytes; a block that passes
address 255; an address byte with no value; a block with bytes missing. -/
def Obligations.FormatErrors : Prop :=
  (∀ stream : List Byte, 512 < stream.length → decodeStream params stream = .error .streamTooLong) ∧
  (∀ (n : Nat) (v : Byte) (rest : List Byte) (d : Decoded), d.pcSet = true →
    (256 < d.ipc.toNat + v.toNat →
      decodePairs (n + 1) (d.ipc :: v :: rest) d = .error .blockPastMemory) ∧
    (d.ipc.toNat + v.toNat ≤ 256 → rest.length < v.toNat →
      decodePairs (n + 1) (d.ipc :: v :: rest) d = .error .truncatedBlock)) ∧
  (∀ (n : Nat) (a : Byte) (d : Decoded), decodePairs (n + 1) [a] d = .error .truncatedPair) ∧
  (∀ (stream : List Byte) (r : FormatReason), decodeStream params stream = .error r →
    r = .streamTooLong ∨ r = .blockPastMemory ∨ r = .truncatedPair ∨ r = .truncatedBlock)

/-- Rules R170, R172: decoding a raw 256-byte dump and then encoding it returns the original bytes, with
byte 0 as the entry point; a dump of any other length is a format error, named by its length. -/
def Obligations.RawDumpRoundTrips : Prop :=
  ∀ (stream : List Byte) (s : State),
    (stream.length = 256 →
      ∃ t v, perform (.decodeRaw stream) s = .ok t (.ipc v) none ∧
        perform .encode t = .ok t (.bytes stream) none ∧
        stream.head? = some v ∧ t.ipc = v ∧ Image.read t.img 0x00#8 = v ∧ t.imgValid = true ∧
        s.ObservesSame t) ∧
    (256 < stream.length →
      ∃ t, perform (.decodeRaw stream) s = .error t (.formatError (some .rawTooLong)) ∧ t.imgValid = false) ∧
    (stream.length < 256 →
      ∃ t, perform (.decodeRaw stream) s = .error t (.formatError (some .rawTooShort)) ∧ t.imgValid = false)

/-- Rule R171: `Encode` returns the 256 bytes of IMG in order, address 0 included, and changes no state;
it requires a valid image. -/
def Obligations.EncodeReturnsTheImage : Prop :=
  ∀ s : State,
    (s.imgValid = true → ∃ bs : List Byte, perform .encode s = .ok s (.bytes bs) none ∧ bs.length = 256 ∧
      ∀ a : Byte, bs[a.toNat]? = some (Image.read s.img a)) ∧
    (s.imgValid = false → perform .encode s = .error s .noImage)

/-! ### Minifloat (spec/43_minifloat.md) -/

/-- Rule R116: the closed form of Widen, its range, and where its leading one is. -/
def Obligations.WidenClosedForm : Prop :=
  ∀ m : Byte,
    widen m = (if m.getLsbD 7 then -1 else 1) * ((16 + mfMant m) * 2 ^ mfExp m : Nat) ∧
    16 ≤ (widen m).natAbs ∧ (widen m).natAbs ≤ 3968 ∧ (widen m).natAbs.log2 = 4 + mfExp m

/-- Rules R118, R230: for a window that is not zero Narrow's loop ends with bit 11 set, after
`c = 11 - floor(log2 w)` shifts. -/
def Obligations.NormaliseFindsTheLeadingOne : Prop :=
  ∀ w : Nat, 0 < w → w < 4096 →
    normalise 11 w 0 = (w * 2 ^ (11 - w.log2), 11 - w.log2) ∧
    (normalise 11 w 0).1.testBit 11 = true ∧ (normalise 11 w 0).1 < 4096 ∧ (normalise 11 w 0).2 ≤ 11

/-- Rule R119: the closed form of Narrow in the normal range; the result is the greatest representable
magnitude not above `|v|`, it keeps the sign, and it is exact when `|v|` is a multiple of `2^(k-4)`. -/
def Obligations.NarrowTruncatesTowardZero : Prop :=
  ∀ v : Int, 16 ≤ v.natAbs → v.natAbs ≤ 4095 →
    ∃ m : Byte, narrow params v = some m ∧
      4 ≤ v.natAbs.log2 ∧ v.natAbs.log2 ≤ 11 ∧
      mfSign m = decide (v < 0) ∧
      mfExp m = v.natAbs.log2 - 4 ∧
      mfMant m = v.natAbs / 2 ^ (v.natAbs.log2 - 4) - 16 ∧
      (widen m).natAbs ≤ v.natAbs ∧
      (∀ n : Byte, (widen n).natAbs ≤ v.natAbs → (widen n).natAbs ≤ (widen m).natAbs) ∧
      (v.natAbs % 2 ^ (v.natAbs.log2 - 4) = 0 → widen m = v)

/-- Rules R120, R121, R122: bits 12 and above of the magnitude have no influence on Narrow's result,
whatever the parameters; with the decided ones it answers 0x00 exactly where the low twelve bits hold
less than 16, or hold 16 with no negative sign (rule R123); with the two worked overflows. -/
def Obligations.NarrowOutsideTheNormalRange : Prop :=
  (∀ (P : Params) (v v' : Int), (v < 0 ↔ v' < 0) → v.natAbs % 4096 = v'.natAbs % 4096 →
    narrow P v = narrow P v') ∧
  (∀ v : Int, narrow params v = some 0x00#8 ↔
    v.natAbs % 4096 < 16 ∨ (v.natAbs % 4096 = 16 ∧ 0 ≤ v)) ∧
  mfAdd params 0x7F#8 0x7F#8 = some 0x7E#8 ∧ mfAdd params 0x70#8 0x78#8 = some 0x60#8

/-- Rule R125: the sum in MfAdd is exact, at most 7936 in magnitude, and any `FIXED_WIDTH` of 14 or more
gives the same result (rule R117). -/
def Obligations.FixedPointSumIsExact : Prop :=
  ∀ a b : Byte,
    fixedAdd params (widen a) (widen b) = widen a + widen b ∧
    (widen a + widen b).natAbs ≤ 7936 ∧
    ∀ n : Nat, 14 ≤ n → mfAdd { params with fixedWidth := n } a b = mfAdd params a b

/-- Rule R126: the laws of the source: identity, commutativity, the round trip of Narrow and Widen,
that addition is not associative, and opposite operands. -/
def Obligations.MfAddLaws : Prop :=
  (∀ a : Byte, mfAdd params a 0x00#8 = some a ∧ mfAdd params 0x00#8 a = some a) ∧
  (∀ a b : Byte, mfAdd params a b = mfAdd params b a) ∧
  (∀ x : Byte, narrow params (widen x) = some x) ∧
  (mfAdd params 0x01#8 0x01#8 = some 0x11#8 ∧ mfAdd params 0x11#8 0x02#8 = some 0x1A#8 ∧
    mfAdd params 0x01#8 0x02#8 = some 0x11#8 ∧ mfAdd params 0x01#8 0x11#8 = some 0x19#8) ∧
  (∀ a : Byte, a ≠ 0x00#8 → a ≠ 0x80#8 → mfAdd params a (a ^^^ 0x80#8) = some 0x00#8) ∧
  (mfAdd params 0x00#8 0x80#8 = some 0x80#8 ∧ mfAdd params 0x80#8 0x00#8 = some 0x80#8)

/-! ### Runs (spec/70_reset_and_hazards.md) -/

/-- Rule R225: within the Cycles the host allows, a run can only be halted, at a state whose `ir` holds a
HALT, or faulted with FetchOutOfBounds at `pc = 255`, or still running, at a state whose `ir` holds none. -/
def Obligations.RunEndsInOneOfThreeWays : Prop :=
  ∀ (k : Nat) (s : State),
    (∃ t, (runLoop k s).1 = .halted t ∧ halted t = true ∧ step t = .next t) ∨
    (∃ t, (runLoop k s).1 = .faulted t (.fetchOutOfBounds 255#8) ∧ t.pc = 255#8) ∨
    (∃ t, (runLoop k s).1 = .stillRunning t ∧ (0 < k → halted t = false))

/-- Rule R225: the end of a run does not depend on how many more Cycles the host allows. -/
def Obligations.RunEndIsStable : Prop :=
  ∀ (k m : Nat) (s : State), k ≤ m →
    (∀ t, (runLoop k s).1 = .halted t → runLoop m s = runLoop k s) ∧
    (∀ t f, (runLoop k s).1 = .faulted t f → runLoop m s = runLoop k s)

/-- Rule R103's corner case: zero-filled memory never halts; from an even `pc` the run goes on for ever,
with one event a Cycle; from an odd `pc` it reaches 255 and faults. -/
def Obligations.ZeroFilledMemoryNeverHalts : Prop :=
  ∀ s : State, (∀ a, s.memAt a = 0x00#8) →
    (s.pc.toNat % 2 = 0 → ∀ k, (∃ t, (runLoop k s).1 = .stillRunning t) ∧ (runLoop k s).2.length = k) ∧
    (s.pc.toNat % 2 = 1 → ∃ k t, (runLoop k s).1 = .faulted t (.fetchOutOfBounds 255#8))

/-! ### The parameters' other values (spec/00_scope.md rule R5) -/

/-- Rules R42, R45, R74, R88, R117, R120, R121, R168, R170: what the parameters do at values other than the
decided ones. The little fetch order swaps the two bytes; a wrapping fetch at 255 reads `MEM[255]` and
`MEM[0]`; one word halts; an unsupported opcode is an error; the normalisation of a zero window answers
`NARROW_ZERO`, and never ends where that is `hang`, which MfAdd meets exactly at two non-zero operands
whose sum has a zero window; a magnitude of 1 to 15 answers `NARROW_UNDERFLOW`; a stream longer than
`IMG_MAX_STREAM_BYTES` is an error; a short raw dump is filled with 0x00. (`FIXED_WIDTH`:
`FixedPointSumIsExact`.) -/
def Obligations.AlternativesNotTaken : Prop :=
  (∀ b0 b1 : Byte, wordOfBytes { params with fetchOrder := .little } b0 b1 = wordOfBytes params b1 b0) ∧
  (∀ s : State, s.pc = 255#8 →
    fetchWord { params with fetchAt255 := .wrap } s = .ok (s.memAt 255#8 ++ s.memAt 0#8)) ∧
  (∀ w : Word, isHalt { params with haltMatch := .wordC000 } w = true ↔ w = 0xC000#16) ∧
  (∀ (op : BitVec 4) (s : State), unsupportedOpcode { params with unsupportedPolicy := .fault } op s =
    .fault (.unsupportedInstruction op s.pc)) ∧
  (∀ (z : Option Byte) (v : Int), v.natAbs % 4096 = 0 → narrow { params with narrowZero := z } v = z) ∧
  (∀ a b : Byte, mfAdd { params with narrowZero := none } a b = none ↔
    a ≠ 0x00#8 ∧ b ≠ 0x00#8 ∧ (widen a + widen b).natAbs % 4096 = 0) ∧
  (∀ (f : Bool → Nat → Byte) (v : Int), 1 ≤ v.natAbs % 4096 → v.natAbs % 4096 ≤ 15 →
    narrow { params with narrowUnderflow := f } v = some (f (decide (v < 0)) (v.natAbs % 4096))) ∧
  (∀ (n : Nat) (stream : List Byte), n < stream.length →
    decodeStream { params with imgMaxStreamBytes := n } stream = .error .streamTooLong) ∧
  (∀ stream : List Byte, stream.length ≤ 256 →
    ∃ g, decodeRawStream { params with rawShortInput := .zeroFill } stream = .ok (g, Image.read g 0x00#8) ∧
      ∀ a : Byte, Image.read g a = (stream[a.toNat]?).getD 0x00#8)
end

