-- ==== Sys2Proof/Laws/Encoding.lean ====
section
/-! SUPPORT. The fields of a word that is put together from fields (spec/30_encoding.md rules R61 and
R63). -/

namespace Sys2Proof

theorem opField_append12 (op : BitVec 4) (low : Low12) : opField (op ++ low) = op := by
  unfold opField
  ext i hi
  rw [BitVec.getElem_extractLsb', BitVec.getLsbD_append]
  simp [hi]

theorem low12Field_append12 (op : BitVec 4) (low : Low12) : low12Field (op ++ low) = low := by
  unfold low12Field
  ext i hi
  rw [BitVec.getElem_extractLsb', BitVec.getLsbD_append]
  simp [hi]

theorem opField_append_4_8 (op p : BitVec 4) (b : Byte) : opField (op ++ p ++ b) = op := by
  unfold opField
  ext i hi
  rw [BitVec.getElem_extractLsb', BitVec.getLsbD_append, BitVec.getLsbD_append,
    if_neg (by omega), if_neg (by omega), show 12 + i - 8 - 4 = i by omega, BitVec.getLsbD_eq_getElem hi]

theorem opField_append_4_4_4 (op p q r : BitVec 4) : opField (op ++ p ++ q ++ r) = op := by
  unfold opField
  ext i hi
  rw [BitVec.getElem_extractLsb', BitVec.getLsbD_append, BitVec.getLsbD_append, BitVec.getLsbD_append,
    if_neg (by omega), if_neg (by omega), if_neg (by omega), show 12 + i - 4 - 4 - 4 = i by omega,
    BitVec.getLsbD_eq_getElem hi]

end Sys2Proof
end

