-- ==== Sys2Proof/Laws/State.lean ====
section
/-! SUPPORT. One lemma per field of the state per update of the state, so that no later proof unfolds a
record update; and the parameter values that are decided (spec/00_scope.md rule R5). -/

namespace Sys2Proof.Machine

/-! ### `writeReg` -/

@[simp] theorem writeReg_x (s : State) (i : RegNum) (v : Byte) : (writeReg s i v).x = s.x.set i.toNat v i.isLt := rfl
@[simp] theorem writeReg_pc (s : State) (i : RegNum) (v : Byte) : (writeReg s i v).pc = s.pc := rfl
@[simp] theorem writeReg_ir (s : State) (i : RegNum) (v : Byte) : (writeReg s i v).ir = s.ir := rfl
@[simp] theorem writeReg_mem (s : State) (i : RegNum) (v : Byte) : (writeReg s i v).mem = s.mem := rfl
@[simp] theorem writeReg_img (s : State) (i : RegNum) (v : Byte) : (writeReg s i v).img = s.img := rfl
@[simp] theorem writeReg_ipc (s : State) (i : RegNum) (v : Byte) : (writeReg s i v).ipc = s.ipc := rfl
@[simp] theorem writeReg_imgValid (s : State) (i : RegNum) (v : Byte) : (writeReg s i v).imgValid = s.imgValid := rfl
@[simp] theorem writeReg_ldr (s : State) (i : RegNum) (v : Byte) : (writeReg s i v).ldr = s.ldr := rfl
@[simp] theorem writeReg_report (s : State) (i : RegNum) (v : Byte) : (writeReg s i v).report = s.report := rfl
@[simp] theorem writeReg_freeCtr (s : State) (i : RegNum) (v : Byte) : (writeReg s i v).freeCtr = s.freeCtr := rfl

/-! ### `writeMem` -/

@[simp] theorem writeMem_x (s : State) (a v : Byte) : (writeMem s a v).x = s.x := rfl
@[simp] theorem writeMem_pc (s : State) (a v : Byte) : (writeMem s a v).pc = s.pc := rfl
@[simp] theorem writeMem_ir (s : State) (a v : Byte) : (writeMem s a v).ir = s.ir := rfl
@[simp] theorem writeMem_mem (s : State) (a v : Byte) : (writeMem s a v).mem = Memory.write s.mem a v := rfl
@[simp] theorem writeMem_img (s : State) (a v : Byte) : (writeMem s a v).img = s.img := rfl
@[simp] theorem writeMem_ipc (s : State) (a v : Byte) : (writeMem s a v).ipc = s.ipc := rfl
@[simp] theorem writeMem_imgValid (s : State) (a v : Byte) : (writeMem s a v).imgValid = s.imgValid := rfl
@[simp] theorem writeMem_ldr (s : State) (a v : Byte) : (writeMem s a v).ldr = s.ldr := rfl
@[simp] theorem writeMem_report (s : State) (a v : Byte) : (writeMem s a v).report = s.report := rfl
@[simp] theorem writeMem_freeCtr (s : State) (a v : Byte) : (writeMem s a v).freeCtr = s.freeCtr := rfl

/-! ### `setPc` -/

@[simp] theorem setPc_x (s : State) (t : Byte) : (setPc s t).x = s.x := rfl
@[simp] theorem setPc_pc (s : State) (t : Byte) : (setPc s t).pc = t := rfl
@[simp] theorem setPc_ir (s : State) (t : Byte) : (setPc s t).ir = s.ir := rfl
@[simp] theorem setPc_mem (s : State) (t : Byte) : (setPc s t).mem = s.mem := rfl
@[simp] theorem setPc_img (s : State) (t : Byte) : (setPc s t).img = s.img := rfl
@[simp] theorem setPc_ipc (s : State) (t : Byte) : (setPc s t).ipc = s.ipc := rfl
@[simp] theorem setPc_imgValid (s : State) (t : Byte) : (setPc s t).imgValid = s.imgValid := rfl
@[simp] theorem setPc_ldr (s : State) (t : Byte) : (setPc s t).ldr = s.ldr := rfl
@[simp] theorem setPc_report (s : State) (t : Byte) : (setPc s t).report = s.report := rfl
@[simp] theorem setPc_freeCtr (s : State) (t : Byte) : (setPc s t).freeCtr = s.freeCtr := rfl

/-! ### `advance` -/

@[simp] theorem advance_x (s : State) : (advance s).x = s.x := rfl
@[simp] theorem advance_pc (s : State) : (advance s).pc = s.pc + 2#8 := rfl
@[simp] theorem advance_ir (s : State) : (advance s).ir = s.ir := rfl
@[simp] theorem advance_mem (s : State) : (advance s).mem = s.mem := rfl
@[simp] theorem advance_img (s : State) : (advance s).img = s.img := rfl
@[simp] theorem advance_ipc (s : State) : (advance s).ipc = s.ipc := rfl
@[simp] theorem advance_imgValid (s : State) : (advance s).imgValid = s.imgValid := rfl
@[simp] theorem advance_ldr (s : State) : (advance s).ldr = s.ldr := rfl
@[simp] theorem advance_report (s : State) : (advance s).report = s.report := rfl
@[simp] theorem advance_freeCtr (s : State) : (advance s).freeCtr = s.freeCtr := rfl

/-! ### `emit` -/

@[simp] theorem emit_x (s : State) (e : Event) : (emit s e).x = s.x := rfl
@[simp] theorem emit_pc (s : State) (e : Event) : (emit s e).pc = s.pc := rfl
@[simp] theorem emit_ir (s : State) (e : Event) : (emit s e).ir = s.ir := rfl
@[simp] theorem emit_mem (s : State) (e : Event) : (emit s e).mem = s.mem := rfl
@[simp] theorem emit_img (s : State) (e : Event) : (emit s e).img = s.img := rfl
@[simp] theorem emit_ipc (s : State) (e : Event) : (emit s e).ipc = s.ipc := rfl
@[simp] theorem emit_imgValid (s : State) (e : Event) : (emit s e).imgValid = s.imgValid := rfl
@[simp] theorem emit_ldr (s : State) (e : Event) : (emit s e).ldr = s.ldr := rfl
@[simp] theorem emit_report (s : State) (e : Event) : (emit s e).report = some e := rfl
@[simp] theorem emit_freeCtr (s : State) (e : Event) : (emit s e).freeCtr = s.freeCtr := rfl

/-! ### `fetched` -/

@[simp] theorem fetched_x (s : State) (w : Word) : (fetched s w).x = s.x := rfl
@[simp] theorem fetched_pc (s : State) (w : Word) : (fetched s w).pc = s.pc := rfl
@[simp] theorem fetched_ir (s : State) (w : Word) : (fetched s w).ir = w := rfl
@[simp] theorem fetched_mem (s : State) (w : Word) : (fetched s w).mem = s.mem := rfl
@[simp] theorem fetched_img (s : State) (w : Word) : (fetched s w).img = s.img := rfl
@[simp] theorem fetched_ipc (s : State) (w : Word) : (fetched s w).ipc = s.ipc := rfl
@[simp] theorem fetched_imgValid (s : State) (w : Word) : (fetched s w).imgValid = s.imgValid := rfl
@[simp] theorem fetched_ldr (s : State) (w : Word) : (fetched s w).ldr = s.ldr := rfl
@[simp] theorem fetched_report (s : State) (w : Word) : (fetched s w).report = none := rfl
@[simp] theorem fetched_freeCtr (s : State) (w : Word) : (fetched s w).freeCtr = s.freeCtr := rfl

/-! ### The loader's updates of the processor's part (none of them changes it) -/

@[simp] theorem loaderBegin_x (s : State) : (loaderBegin s).x = s.x := rfl
@[simp] theorem loaderBegin_pc (s : State) : (loaderBegin s).pc = s.pc := rfl
@[simp] theorem loaderBegin_ir (s : State) : (loaderBegin s).ir = s.ir := rfl
@[simp] theorem loaderBegin_mem (s : State) : (loaderBegin s).mem = s.mem := rfl
@[simp] theorem loaderBegin_report (s : State) : (loaderBegin s).report = s.report := rfl

@[simp] theorem loaderError_x (s : State) (r : FormatReason) : (loaderError s r).x = s.x := rfl
@[simp] theorem loaderError_pc (s : State) (r : FormatReason) : (loaderError s r).pc = s.pc := rfl
@[simp] theorem loaderError_ir (s : State) (r : FormatReason) : (loaderError s r).ir = s.ir := rfl
@[simp] theorem loaderError_mem (s : State) (r : FormatReason) : (loaderError s r).mem = s.mem := rfl
@[simp] theorem loaderError_report (s : State) (r : FormatReason) : (loaderError s r).report = s.report := rfl

@[simp] theorem loaderBlock_x (s : State) (b : Byte) : (loaderBlock s b).x = s.x := rfl
@[simp] theorem loaderBlock_pc (s : State) (b : Byte) : (loaderBlock s b).pc = s.pc := rfl
@[simp] theorem loaderBlock_ir (s : State) (b : Byte) : (loaderBlock s b).ir = s.ir := rfl
@[simp] theorem loaderBlock_mem (s : State) (b : Byte) : (loaderBlock s b).mem = s.mem := rfl
@[simp] theorem loaderBlock_report (s : State) (b : Byte) : (loaderBlock s b).report = s.report := rfl

@[simp] theorem loaderCount_x (s : State) : (loaderCount s).x = s.x := rfl
@[simp] theorem loaderCount_pc (s : State) : (loaderCount s).pc = s.pc := rfl
@[simp] theorem loaderCount_ir (s : State) : (loaderCount s).ir = s.ir := rfl
@[simp] theorem loaderCount_mem (s : State) : (loaderCount s).mem = s.mem := rfl
@[simp] theorem loaderCount_report (s : State) : (loaderCount s).report = s.report := rfl

@[simp] theorem loaderEnd_x (s : State) : (loaderEnd s).x = s.x := rfl
@[simp] theorem loaderEnd_pc (s : State) : (loaderEnd s).pc = s.pc := rfl
@[simp] theorem loaderEnd_ir (s : State) : (loaderEnd s).ir = s.ir := rfl
@[simp] theorem loaderEnd_mem (s : State) : (loaderEnd s).mem = s.mem := rfl
@[simp] theorem loaderEnd_report (s : State) : (loaderEnd s).report = s.report := rfl

@[simp] theorem scrambleLoader_x (s : State) : (scrambleLoader s).x = s.x := rfl
@[simp] theorem scrambleLoader_pc (s : State) : (scrambleLoader s).pc = s.pc := rfl
@[simp] theorem scrambleLoader_ir (s : State) : (scrambleLoader s).ir = s.ir := rfl
@[simp] theorem scrambleLoader_mem (s : State) : (scrambleLoader s).mem = s.mem := rfl
@[simp] theorem scrambleLoader_report (s : State) : (scrambleLoader s).report = s.report := rfl

@[simp] theorem decodeFailed_x (s : State) : (decodeFailed s).x = s.x := by simp only [decodeFailed]
@[simp] theorem decodeFailed_pc (s : State) : (decodeFailed s).pc = s.pc := by simp only [decodeFailed]
@[simp] theorem decodeFailed_ir (s : State) : (decodeFailed s).ir = s.ir := by simp only [decodeFailed]
@[simp] theorem decodeFailed_mem (s : State) : (decodeFailed s).mem = s.mem := by simp only [decodeFailed]
@[simp] theorem decodeFailed_report (s : State) : (decodeFailed s).report = s.report := by simp only [decodeFailed]

@[simp] theorem decodeDone_x (s : State) (g : Image) (v : Byte) : (decodeDone s g v).x = s.x := rfl
@[simp] theorem decodeDone_pc (s : State) (g : Image) (v : Byte) : (decodeDone s g v).pc = s.pc := rfl
@[simp] theorem decodeDone_ir (s : State) (g : Image) (v : Byte) : (decodeDone s g v).ir = s.ir := rfl
@[simp] theorem decodeDone_mem (s : State) (g : Image) (v : Byte) : (decodeDone s g v).mem = s.mem := rfl
@[simp] theorem decodeDone_report (s : State) (g : Image) (v : Byte) : (decodeDone s g v).report = s.report := rfl

/-! ### The loader's updates of the loader's part -/

@[simp] theorem decodeFailed_img (s : State) : (decodeFailed s).img = freeImage s.freeCtr := by simp only [decodeFailed]
@[simp] theorem decodeFailed_ipc (s : State) : (decodeFailed s).ipc = Config.freeEntry s.freeCtr := by simp only [decodeFailed]
@[simp] theorem decodeFailed_imgValid (s : State) : (decodeFailed s).imgValid = false := by simp only [decodeFailed]
@[simp] theorem decodeFailed_ldr (s : State) : (decodeFailed s).ldr = s.ldr := by simp only [decodeFailed]
@[simp] theorem decodeFailed_freeCtr (s : State) : (decodeFailed s).freeCtr = s.freeCtr + 1 := by simp only [decodeFailed]

@[simp] theorem decodeDone_img (s : State) (g : Image) (v : Byte) : (decodeDone s g v).img = g := rfl
@[simp] theorem decodeDone_ipc (s : State) (g : Image) (v : Byte) : (decodeDone s g v).ipc = v := rfl
@[simp] theorem decodeDone_imgValid (s : State) (g : Image) (v : Byte) : (decodeDone s g v).imgValid = true := rfl
@[simp] theorem decodeDone_ldr (s : State) (g : Image) (v : Byte) : (decodeDone s g v).ldr = s.ldr := rfl
@[simp] theorem decodeDone_freeCtr (s : State) (g : Image) (v : Byte) : (decodeDone s g v).freeCtr = s.freeCtr := rfl

@[simp] theorem scrambleLoader_img (s : State) : (scrambleLoader s).img = s.img := rfl
@[simp] theorem scrambleLoader_ipc (s : State) : (scrambleLoader s).ipc = s.ipc := rfl
@[simp] theorem scrambleLoader_imgValid (s : State) : (scrambleLoader s).imgValid = s.imgValid := rfl
@[simp] theorem scrambleLoader_ldr (s : State) : (scrambleLoader s).ldr = Config.freeLoader s.freeCtr := rfl
@[simp] theorem scrambleLoader_freeCtr (s : State) : (scrambleLoader s).freeCtr = s.freeCtr + 1 := rfl

@[simp] theorem loaderFailed_x (s : State) : (loaderFailed s).x = s.x := by
  simp [loaderFailed]
@[simp] theorem loaderFailed_pc (s : State) : (loaderFailed s).pc = s.pc := by
  simp [loaderFailed]
@[simp] theorem loaderFailed_ir (s : State) : (loaderFailed s).ir = s.ir := by
  simp [loaderFailed]
@[simp] theorem loaderFailed_mem (s : State) : (loaderFailed s).mem = s.mem := by
  simp [loaderFailed]
@[simp] theorem loaderFailed_report (s : State) : (loaderFailed s).report = s.report := by
  simp [loaderFailed]
@[simp] theorem loaderFailed_img (s : State) : (loaderFailed s).img = freeImage (s.freeCtr + 1) := by
  simp [loaderFailed]
@[simp] theorem loaderFailed_ipc (s : State) : (loaderFailed s).ipc = Config.freeEntry (s.freeCtr + 1) := by
  simp [loaderFailed]
@[simp] theorem loaderFailed_imgValid (s : State) : (loaderFailed s).imgValid = false := by
  simp [loaderFailed]
@[simp] theorem loaderFailed_ldr (s : State) : (loaderFailed s).ldr = Config.freeLoader s.freeCtr := by
  simp [loaderFailed]
@[simp] theorem loaderFailed_freeCtr (s : State) : (loaderFailed s).freeCtr = s.freeCtr + 2 := by
  simp [loaderFailed]

@[simp] theorem loaderBegin_img (s : State) : (loaderBegin s).img = [] := rfl
@[simp] theorem loaderBegin_ipc (s : State) : (loaderBegin s).ipc = 0x00#8 := rfl
@[simp] theorem loaderBegin_imgValid (s : State) : (loaderBegin s).imgValid = false := rfl
@[simp] theorem loaderBegin_ldr (s : State) :
    (loaderBegin s).ldr = { s.ldr with pcSet := false, cnt := 0, ph := .addr, err := none } := rfl
@[simp] theorem loaderBegin_freeCtr (s : State) : (loaderBegin s).freeCtr = s.freeCtr := rfl

@[simp] theorem loaderError_img (s : State) (r : FormatReason) : (loaderError s r).img = s.img := rfl
@[simp] theorem loaderError_ipc (s : State) (r : FormatReason) : (loaderError s r).ipc = s.ipc := rfl
@[simp] theorem loaderError_imgValid (s : State) (r : FormatReason) : (loaderError s r).imgValid = s.imgValid := rfl
@[simp] theorem loaderError_ldr (s : State) (r : FormatReason) :
    (loaderError s r).ldr = { s.ldr with ph := .err, err := some r } := rfl
@[simp] theorem loaderError_freeCtr (s : State) (r : FormatReason) : (loaderError s r).freeCtr = s.freeCtr := rfl

@[simp] theorem loaderBlock_img (s : State) (b : Byte) :
    (loaderBlock s b).img = Image.write s.img s.ldr.dst b := rfl
@[simp] theorem loaderBlock_ipc (s : State) (b : Byte) : (loaderBlock s b).ipc = s.ipc := rfl
@[simp] theorem loaderBlock_imgValid (s : State) (b : Byte) : (loaderBlock s b).imgValid = s.imgValid := rfl
@[simp] theorem loaderBlock_ldr (s : State) (b : Byte) :
    (loaderBlock s b).ldr = { s.ldr with dst := s.ldr.dst + 1#8, rem := s.ldr.rem - 1#8, ph := if s.ldr.rem - 1#8 = 0x00#8 then .addr else .blk } := rfl
@[simp] theorem loaderBlock_freeCtr (s : State) (b : Byte) : (loaderBlock s b).freeCtr = s.freeCtr := rfl

@[simp] theorem loaderCount_img (s : State) : (loaderCount s).img = s.img := rfl
@[simp] theorem loaderCount_ipc (s : State) : (loaderCount s).ipc = s.ipc := rfl
@[simp] theorem loaderCount_imgValid (s : State) : (loaderCount s).imgValid = s.imgValid := rfl
@[simp] theorem loaderCount_ldr (s : State) :
    (loaderCount s).ldr = { s.ldr with cnt := s.ldr.cnt + 1 } := rfl
@[simp] theorem loaderCount_freeCtr (s : State) : (loaderCount s).freeCtr = s.freeCtr := rfl

@[simp] theorem loaderEnd_img (s : State) : (loaderEnd s).img = s.img := rfl
@[simp] theorem loaderEnd_ipc (s : State) : (loaderEnd s).ipc = s.ipc := rfl
@[simp] theorem loaderEnd_imgValid (s : State) : (loaderEnd s).imgValid = true := rfl
@[simp] theorem loaderEnd_ldr (s : State) : (loaderEnd s).ldr = s.ldr := rfl
@[simp] theorem loaderEnd_freeCtr (s : State) : (loaderEnd s).freeCtr = s.freeCtr := rfl

/-! ### `resetOp` -/

@[simp] theorem resetOp_x (s : State) : (resetOp s).x = Vector.replicate 16 0x00#8 := rfl
@[simp] theorem resetOp_pc (s : State) : (resetOp s).pc = 0x00#8 := rfl
@[simp] theorem resetOp_ir (s : State) : (resetOp s).ir = 0x0000#16 := rfl
@[simp] theorem resetOp_mem (s : State) : (resetOp s).mem = s.mem := rfl
@[simp] theorem resetOp_img (s : State) : (resetOp s).img = s.img := rfl
@[simp] theorem resetOp_ipc (s : State) : (resetOp s).ipc = s.ipc := rfl
@[simp] theorem resetOp_imgValid (s : State) : (resetOp s).imgValid = s.imgValid := rfl
@[simp] theorem resetOp_ldr (s : State) : (resetOp s).ldr = s.ldr := rfl
@[simp] theorem resetOp_report (s : State) : (resetOp s).report = s.report := rfl
@[simp] theorem resetOp_freeCtr (s : State) : (resetOp s).freeCtr = s.freeCtr := rfl

/-! ### The decided parameters -/

@[simp] theorem params_fetchOrder : params.fetchOrder = .big := rfl
@[simp] theorem params_fetchAt255 : params.fetchAt255 = .fault := rfl
@[simp] theorem params_haltMatch : params.haltMatch = .opcodeField := rfl
@[simp] theorem params_unsupportedPolicy : params.unsupportedPolicy = .carryOn := rfl
@[simp] theorem params_fixedWidth : params.fixedWidth = 16 := rfl
@[simp] theorem params_narrowZero : params.narrowZero = some 0x00#8 := rfl
@[simp] theorem params_narrowUnderflow (b : Bool) (n : Nat) : params.narrowUnderflow b n = 0x00#8 := rfl
@[simp] theorem params_imgMaxStreamBytes : params.imgMaxStreamBytes = 512 := rfl
@[simp] theorem params_rawShortInput : params.rawShortInput = .error := rfl

end Sys2Proof.Machine
end

