-- ==== Sys2Proof/Laws/Memory.lean ====
section
/-! SUPPORT. Lists of cells, MEM and IMG: a read after a write, and the canonical form, which every
operation keeps (spec/20_memory.md rule R41, spec/10_state.md rules R26, R27 and R33). -/

namespace Sys2Proof.Machine

/-! ### Lists of cells -/

theorem cellsRead_insert_same (m : List Host.Cell) (a : Nat) (v : Byte) :
    cellsRead (cellsInsert m a v) a = some v := by
  induction m with
  | nil => simp [cellsInsert, cellsRead]
  | cons c m ih =>
    obtain ⟨b, w⟩ := c
    simp only [cellsInsert]
    split
    · simp [cellsRead]
    · split
      · simp [cellsRead]
      · simp [cellsRead, *]

theorem cellsRead_insert_other (m : List Host.Cell) {a b : Nat} (v : Byte) (h : b ≠ a) :
    cellsRead (cellsInsert m a v) b = cellsRead m b := by
  induction m with
  | nil => simp [cellsInsert, cellsRead, h]
  | cons c m ih =>
    obtain ⟨c, w⟩ := c
    simp only [cellsInsert]
    split
    · simp [cellsRead, h]
    · split
      · subst_vars; simp [cellsRead, h]
      · simp [cellsRead, ih]

theorem cellsErase_cons (c : Host.Cell) (m : List Host.Cell) (a : Nat) :
    cellsErase (c :: m) a = if c.1 = a then cellsErase m a else c :: cellsErase m a := by
  by_cases h : c.1 = a <;> simp [cellsErase, h]

theorem cellsRead_erase_same (m : List Host.Cell) (a : Nat) : cellsRead (cellsErase m a) a = none := by
  induction m with
  | nil => rfl
  | cons c m ih =>
    rw [cellsErase_cons]
    split
    · exact ih
    · simp [cellsRead, ih, Ne.symm ‹_›]

theorem cellsRead_erase_other (m : List Host.Cell) {a b : Nat} (h : b ≠ a) :
    cellsRead (cellsErase m a) b = cellsRead m b := by
  induction m with
  | nil => rfl
  | cons c m ih =>
    rw [cellsErase_cons]
    split
    · subst_vars; simp [cellsRead, h, ih]
    · simp [cellsRead, ih]

theorem cellsRising_mono {lo lo' : Nat} (h : lo' ≤ lo) {m : List Host.Cell}
    (hm : cellsRising lo m = true) : cellsRising lo' m = true := by
  cases m with
  | nil => rfl
  | cons c m =>
    simp only [cellsRising, Bool.and_eq_true, decide_eq_true_eq] at hm ⊢
    exact ⟨⟨h.trans hm.1.1, hm.1.2⟩, hm.2⟩

theorem cellsRising_insert {lo : Nat} {m : List Host.Cell} {a : Nat} (v : Byte) (ha : a < 256)
    (hlo : lo ≤ a) (hm : cellsRising lo m = true) : cellsRising lo (cellsInsert m a v) = true := by
  induction m generalizing lo with
  | nil => simp [cellsInsert, cellsRising, ha, hlo]
  | cons c m ih =>
    obtain ⟨b, w⟩ := c
    simp only [cellsRising, Bool.and_eq_true, decide_eq_true_eq] at hm
    simp only [cellsInsert]
    split
    · simp only [cellsRising, Bool.and_eq_true, decide_eq_true_eq]
      exact ⟨⟨hlo, ha⟩, ⟨by omega, hm.1.2⟩, hm.2⟩
    · split
      · subst_vars; simp only [cellsRising, Bool.and_eq_true, decide_eq_true_eq]
        exact hm
      · simp only [cellsRising, Bool.and_eq_true, decide_eq_true_eq]
        exact ⟨hm.1, ih (by omega) hm.2⟩

theorem cellsRising_erase {lo : Nat} {m : List Host.Cell} (a : Nat)
    (hm : cellsRising lo m = true) : cellsRising lo (cellsErase m a) = true := by
  induction m generalizing lo with
  | nil => rfl
  | cons c m ih =>
    simp only [cellsRising, Bool.and_eq_true, decide_eq_true_eq] at hm
    rw [cellsErase_cons]
    split
    · exact cellsRising_mono (Nat.le_succ_of_le hm.1.1) (ih hm.2)
    · simp only [cellsRising, Bool.and_eq_true, decide_eq_true_eq]
      exact ⟨hm.1, ih hm.2⟩

/-! ### MEM -/

@[simp] theorem Memory.read_nil (a : Byte) : Memory.read [] a = Memory.unwritten a := rfl

@[simp] theorem Memory.written_nil (a : Byte) : Memory.written [] a = false := rfl

theorem Memory.read_write (m : Memory) (a v b : Byte) :
    Memory.read (Memory.write m a v) b = if b = a then v else Memory.read m b := by
  unfold Memory.read Memory.write
  split
  · subst_vars; rw [cellsRead_insert_same]; rfl
  · rw [cellsRead_insert_other m v (fun h => ‹¬ b = a› (BitVec.eq_of_toNat_eq h))]

/-- A write writes its cell, and leaves every other cell written or not as it was. -/
theorem Memory.written_write (m : Memory) (a v b : Byte) :
    Memory.written (Memory.write m a v) b = (decide (b = a) || Memory.written m b) := by
  unfold Memory.written Memory.write
  by_cases h : b = a
  · subst h; simp [cellsRead_insert_same]
  · simp [h, cellsRead_insert_other m v (fun e => h (BitVec.eq_of_toNat_eq e))]

theorem Memory.wf_write {m : Memory} (a v : Byte) (hm : Memory.wf m = true) :
    Memory.wf (Memory.write m a v) = true :=
  cellsRising_insert v a.isLt (Nat.zero_le _) hm

/-! ### IMG -/

@[simp] theorem Image.read_nil (a : Byte) : Image.read [] a = 0x00#8 := rfl

theorem Image.read_write (g : Image) (a v b : Byte) :
    Image.read (Image.write g a v) b = if b = a then v else Image.read g b := by
  unfold Image.read Image.write
  by_cases h : b = a
  · subst h
    by_cases hv : v = 0x00#8
    · simp [hv, cellsRead_erase_same]
    · simp [hv, cellsRead_insert_same]
  · have hn : b.toNat ≠ a.toNat := fun e => h (BitVec.eq_of_toNat_eq e)
    by_cases hv : v = 0x00#8
    · simp [hv, h, cellsRead_erase_other g hn]
    · simp [hv, h, cellsRead_insert_other g v hn]

theorem cellsInsert_all (p : Host.Cell → Bool) {m : List Host.Cell} {a : Nat} {v : Byte}
    (hm : m.all p = true) (hp : p (a, v) = true) : (cellsInsert m a v).all p = true := by
  induction m with
  | nil => simpa [cellsInsert] using hp
  | cons c m ih =>
    obtain ⟨b, w⟩ := c
    simp only [List.all_cons, Bool.and_eq_true] at hm
    simp only [cellsInsert]
    split
    · simp [hm, hp]
    · split
      · simp [hm, hp]
      · simp [hm, ih hm.2]

theorem Image.wf_write {g : Image} (a v : Byte) (hg : Image.wf g = true) :
    Image.wf (Image.write g a v) = true := by
  simp only [Image.wf, Bool.and_eq_true] at hg ⊢
  unfold Image.write
  split
  · refine ⟨cellsRising_erase _ hg.1, ?_⟩
    have := hg.2
    simp only [List.all_eq_true] at this ⊢
    exact fun c hc => this c (List.mem_of_mem_filter hc)
  · exact ⟨cellsRising_insert v a.isLt (Nat.zero_le _) hg.1, cellsInsert_all _ hg.2 (by simpa using ‹_›)⟩

theorem Image.wf_copy {g : Image} (a : Byte) (bs : List Byte) (hg : Image.wf g = true) :
    Image.wf (Image.copy g a bs) = true := by
  induction bs generalizing g a with
  | nil => exact hg
  | cons b bs ih => exact ih _ (Image.wf_write a b hg)

theorem freeImage_wf (n : Nat) : Image.wf (freeImage n) = true := by
  unfold freeImage
  generalize addresses 256 = l
  suffices ∀ g : Image, Image.wf g = true →
      Image.wf (l.foldl (fun g a => Image.write g a (Config.freeImageByte n a.toNat)) g) = true from
    this [] rfl
  induction l with
  | nil => exact fun g hg => hg
  | cons a l ih => exact fun g hg => ih _ (Image.wf_write a _ hg)

/-! ### LoadImage's copy -/

theorem cellsRising_range (f : Nat → Byte) (n lo : Nat) (h : lo + n ≤ 256) :
    cellsRising lo ((List.range' lo n).map (fun k => ((BitVec.ofNat 8 k).toNat, f k))) = true := by
  induction n generalizing lo with
  | zero => rfl
  | succ n ih =>
    have hlo : lo % 256 = lo := Nat.mod_eq_of_lt (by omega)
    simp only [List.range'_succ, List.map_cons, cellsRising, BitVec.toNat_ofNat, Nat.reducePow, hlo]
    have := ih (lo + 1) (by omega)
    simp only [BitVec.toNat_ofNat, Nat.reducePow] at this
    simp [this]
    omega

theorem Image.toMemory_wf (g : Image) : Memory.wf (Image.toMemory g) = true := by
  have := cellsRising_range (fun k => Image.read g (BitVec.ofNat 8 k)) 256 0 (by omega)
  simpa only [Memory.wf, Image.toMemory, addresses, List.map_map, Function.comp_def, List.range_eq_range'] using this

theorem cellsRead_map (f : Byte → Byte) {l : List Byte} {a : Byte} (h : a ∈ l) :
    cellsRead (l.map (fun b => (b.toNat, f b))) a.toNat = some (f a) := by
  induction l with
  | nil => cases h
  | cons b l ih =>
    simp only [List.map_cons, cellsRead]
    split
    · rename_i e
      rw [BitVec.eq_of_toNat_eq e]
    · refine ih ((List.mem_cons.1 h).resolve_left ?_)
      intro e; subst e; simp at *

theorem mem_addresses (a : Byte) : a ∈ addresses 256 :=
  List.mem_map.2 ⟨a.toNat, List.mem_range.2 a.isLt, by simp⟩

/-- After the copy of rule R179 every cell of MEM holds the image's byte. -/
theorem Image.toMemory_read (g : Image) (a : Byte) :
    Memory.read (Image.toMemory g) a = Image.read g a := by
  rw [Memory.read, Image.toMemory, cellsRead_map (Image.read g) (mem_addresses a)]; rfl

/-- After the copy of rule R179 every cell of MEM has been written. -/
theorem Image.toMemory_full (g : Image) : Memory.full (Image.toMemory g) := fun a => by
  rw [Memory.written, Image.toMemory, cellsRead_map (Image.read g) (mem_addresses a)]; rfl

end Sys2Proof.Machine
end

