-- ==== Sys2Proof/Laws/Ops.lean ====
section
/-! SUPPORT. For each shared operation, everything it can do, said once. -/

namespace Sys2Proof.Machine

/-! ### Registers -/

@[simp] theorem readReg_writeReg_same (s : State) (i : RegNum) (v : Byte) :
    readReg (writeReg s i v) i = v := by simp [readReg]

theorem readReg_writeReg_other (s : State) {i j : RegNum} (v : Byte) (h : j ≠ i) :
    readReg (writeReg s i v) j = readReg s j := by
  have hn : i.toNat ≠ j.toNat := fun e => h (BitVec.eq_of_toNat_eq e).symm
  simp [readReg, hn]

@[simp] theorem readReg_writeMem (s : State) (a v : Byte) (i : RegNum) :
    readReg (writeMem s a v) i = readReg s i := rfl

@[simp] theorem readReg_setPc (s : State) (t : Byte) (i : RegNum) :
    readReg (setPc s t) i = readReg s i := rfl

@[simp] theorem readReg_advance (s : State) (i : RegNum) : readReg (advance s) i = readReg s i := rfl

@[simp] theorem readReg_emit (s : State) (e : Event) (i : RegNum) :
    readReg (emit s e) i = readReg s i := rfl

@[simp] theorem readReg_fetched (s : State) (w : Word) (i : RegNum) :
    readReg (fetched s w) i = readReg s i := rfl

/-- Two states with the same register in every slot have the same register file. -/
theorem regs_ext {s t : State} (h : ∀ i, readReg s i = readReg t i) : s.x = t.x := by
  apply Vector.ext
  intro k hk
  have := h (BitVec.ofNat 4 k)
  simpa [readReg, Nat.mod_eq_of_lt hk] using this

/-! ### MEM -/

@[simp] theorem readMem_writeReg (s : State) (i : RegNum) (v a : Byte) :
    readMem (writeReg s i v) a = readMem s a := rfl

@[simp] theorem readMem_setPc (s : State) (t a : Byte) : readMem (setPc s t) a = readMem s a := rfl

@[simp] theorem readMem_advance (s : State) (a : Byte) : readMem (advance s) a = readMem s a := rfl

@[simp] theorem readMem_emit (s : State) (e : Event) (a : Byte) : readMem (emit s e) a = readMem s a := rfl

@[simp] theorem readMem_fetched (s : State) (w : Word) (a : Byte) : readMem (fetched s w) a = readMem s a := rfl

theorem readMem_writeMem (s : State) (a v b : Byte) :
    readMem (writeMem s a v) b = if b = a then v else readMem s b := Memory.read_write s.mem a v b

/-! ### The fetch -/

/-- Everything a fetch can answer when it answers a word. -/
theorem fetchWord_eq_ok {P : Params} {s : State} {w : Word} :
    fetchWord P s = .ok w ↔
      ¬ (s.pc = 255#8 ∧ P.fetchAt255 = .fault) ∧
      w = wordOfBytes P (readMem s s.pc) (readMem s (s.pc + 1#8)) := by
  unfold fetchWord
  by_cases h : s.pc = 255#8 ∧ P.fetchAt255 = .fault
  · simp [h]
  · rw [if_neg h]
    simp only [Except.ok.injEq, h, not_false_eq_true, true_and]
    exact eq_comm

/-- Everything a fetch can answer when it answers none. -/
theorem fetchWord_eq_error {P : Params} {s : State} {f : Fault} :
    fetchWord P s = .error f ↔
      (s.pc = 255#8 ∧ P.fetchAt255 = .fault) ∧ f = .fetchOutOfBounds s.pc := by
  unfold fetchWord
  split
  · simp [*, eq_comm]
  · simp [*]

theorem fetch_eq_ok {s t : State} : fetch s = .ok t ↔ ∃ w, fetchWord params s = .ok w ∧ t = fetched s w := by
  unfold fetch; cases fetchWord params s <;> simp [eq_comm]

theorem fetch_eq_error {s : State} {f : Fault} : fetch s = .error f ↔ fetchWord params s = .error f := by
  unfold fetch; cases fetchWord params s <;> simp

/-- What a step that answers a next state has done: it fetched a word and ran its instruction. -/
theorem step_eq_next {s t : State} :
    step s = .next t ↔ ∃ w, fetchWord params s = .ok w ∧ exec (decode w) (fetched s w) = .next t := by
  unfold step
  cases h : fetch s with
  | error f => simp [fetch_eq_error.1 h]
  | ok u =>
    obtain ⟨w, hw, rfl⟩ := fetch_eq_ok.1 h
    simp [hw]

/-- What a step that answers a fault has done: the fetch failed, or the instruction did. -/
theorem step_eq_fault {s : State} {f : Fault} :
    step s = .fault f ↔ fetchWord params s = .error f ∨
      ∃ w, fetchWord params s = .ok w ∧ exec (decode w) (fetched s w) = .fault f := by
  unfold step
  cases h : fetch s with
  | error g => simp [fetch_eq_error.1 h]
  | ok u =>
    obtain ⟨w, hw, rfl⟩ := fetch_eq_ok.1 h
    simp [hw]

/-! ### The byte order (rule R42) -/

theorem wordOfBytes_bytesOfWord (P : Params) (w : Word) :
    wordOfBytes P (bytesOfWord P w).1 (bytesOfWord P w).2 = w := by
  unfold wordOfBytes bytesOfWord
  cases P.fetchOrder <;>
    · simp only
      ext i hi
      simp only [BitVec.getElem_append, BitVec.getElem_extractLsb']
      split <;> simp [← BitVec.getLsbD_eq_getElem]
      try (congr 1; omega)

/-- A word stored for the fetch is the word fetched. -/
theorem fetchWord_storeFetchWord (P : Params) (s : State) (w : Word) :
    fetchWord P (storeFetchWord P s w) = .ok w := by
  have hne (a : Byte) : a ≠ a + 1#8 := by
    intro e; have := congrArg BitVec.toNat e; simp at this; omega
  have hb := wordOfBytes_bytesOfWord P w
  refine fetchWord_eq_ok.2 ⟨?_, ?_⟩
  · simp only [storeFetchWord, writeMem_pc, setPc_pc, fetchableAt]
    split
    · simp
    · assumption
  · simp [storeFetchWord, readMem_writeMem, hne, hb]

theorem storeFetchWord_wf {P : Params} {s : State} {w : Word} (h : Memory.wf s.mem = true) :
    Memory.wf (storeFetchWord P s w).mem = true := by
  simp only [storeFetchWord, writeMem_mem, setPc_mem]
  exact Memory.wf_write _ _ (Memory.wf_write _ _ h)

/-- The next step after `withFetchWord` runs exactly the instruction of the word. -/
theorem step_withFetchWord (s : State) (nbits w : Nat) :
    step (s.withFetchWord nbits w) =
      exec (decode (tableWord nbits w)) (fetched (s.withFetchWord nbits w) (tableWord nbits w)) := by
  unfold step State.withFetchWord fetch
  simp [fetchWord_storeFetchWord]

/-! ### Unsupported opcodes -/

/-- Under the decided policy an unsupported opcode reports its event and advances. -/
theorem unsupportedOpcode_params (op : BitVec 4) (s : State) :
    unsupportedOpcode params op s = .next (advance (emit s (.unsupportedInstruction op s.pc))) := rfl

/-! ### The loader -/

/-- `Byte` never changes the processor's part of the state or the model's counters (rule R20). -/
theorem loaderValue_frame (s : State) (v : Byte) :
    (loaderValue s v).x = s.x ∧ (loaderValue s v).pc = s.pc ∧ (loaderValue s v).ir = s.ir ∧
    (loaderValue s v).mem = s.mem ∧ (loaderValue s v).report = s.report ∧
    (loaderValue s v).imgValid = s.imgValid ∧ (loaderValue s v).freeCtr = s.freeCtr := by
  unfold loaderValue loaderError
  simp only
  repeat' split
  all_goals exact ⟨rfl, rfl, rfl, rfl, rfl, rfl, rfl⟩

theorem loaderByte_frame (P : Params) (s : State) (b : Byte) :
    (loaderByte P s b).x = s.x ∧ (loaderByte P s b).pc = s.pc ∧ (loaderByte P s b).ir = s.ir ∧
    (loaderByte P s b).mem = s.mem ∧ (loaderByte P s b).report = s.report ∧
    (loaderByte P s b).imgValid = s.imgValid ∧ (loaderByte P s b).freeCtr = s.freeCtr := by
  unfold loaderByte
  repeat' split
  all_goals first
    | exact ⟨rfl, rfl, rfl, rfl, rfl, rfl, rfl⟩
    | exact loaderValue_frame (loaderCount s) b

end Sys2Proof.Machine
end

