-- ==== Sys2Proof/Laws/Exec.lean ====
section
/-! SUPPORT. What each instruction does, as one equation over the shared operations, and what an
instruction can do at all (spec/40_cycle.md rule R83). -/

namespace Sys2Proof.Machine

/-! ### One equation per instruction -/

theorem exec_loadMem (r : RegNum) (a : Byte) (s : State) :
    exec (.loadMem r a) s = .next (advance (writeReg s r (readMem s a))) := rfl
theorem exec_loadLiteral (r : RegNum) (v : Byte) (s : State) :
    exec (.loadLiteral r v) s = .next (advance (writeReg s r v)) := rfl
theorem exec_storeMem (r : RegNum) (a : Byte) (s : State) :
    exec (.storeMem r a) s = .next (advance (writeMem s a (readReg s r))) := rfl
theorem exec_copyReg (ign : Low12) (s : State) : exec (.copyReg ign) s = .next (advance s) := rfl
theorem exec_addInt (ign : Low12) (s : State) : exec (.addInt ign) s = .next (advance s) := rfl
theorem exec_extension (ign : Low12) (s : State) : exec (.extension ign) s = .next (advance s) := rfl
theorem exec_orReg (d p q : RegNum) (s : State) :
    exec (.orReg d p q) s = .next (advance (writeReg s d (readReg s p ||| readReg s q))) := rfl
theorem exec_andReg (d p q : RegNum) (s : State) :
    exec (.andReg d p q) s = .next (advance (writeReg s d (readReg s p &&& readReg s q))) := rfl
theorem exec_xorReg (d p q : RegNum) (s : State) :
    exec (.xorReg d p q) s = .next (advance (writeReg s d (readReg s p ^^^ readReg s q))) := rfl
theorem exec_rotate (d : RegNum) (ign c : BitVec 4) (s : State) :
    exec (.rotate d ign c) s = .next (advance (writeReg s d (ror8 (readReg s d) (rotateCount c)))) := rfl
theorem exec_halt (ign : Low12) (s : State) : exec (.halt ign) s = .next s := rfl
theorem exec_unsupported0 (ign : Low12) (s : State) :
    exec (.unsupported0 ign) s = .next (advance (emit s (.unsupportedInstruction 0x0#4 s.pc))) := rfl
theorem exec_unsupportedD (ign : Low12) (s : State) :
    exec (.unsupportedD ign) s = .next (advance (emit s (.unsupportedInstruction 0xD#4 s.pc))) := rfl
theorem exec_unsupportedF (ign : Low12) (s : State) :
    exec (.unsupportedF ign) s = .next (advance (emit s (.unsupportedInstruction 0xF#4 s.pc))) := rfl

theorem exec_jumpIfEq (r : RegNum) (t : Byte) (s : State) :
    exec (.jumpIfEq r t) s = .next (if readReg s r = readReg s 0#4 then setPc s t else advance s) := by
  simp only [exec, execJumpIfEq, comparand]
  by_cases h : readReg s r = readReg s 0#4 <;> simp only [h, if_true, if_false]

/-- MfAdd is total under the decided parameters (rules R114, R127). -/
theorem mfAdd_params_total (a b : Byte) : ∃ v, mfAdd params a b = some v := by
  unfold mfAdd narrow
  simp only [params_narrowZero]
  repeat' split
  all_goals exact ⟨_, rfl⟩

theorem exec_addFloat (d p q : RegNum) (s : State) :
    ∃ v, mfAdd params (readReg s p) (readReg s q) = some v ∧
      exec (.addFloat d p q) s = .next (advance (writeReg s d v)) := by
  obtain ⟨v, hv⟩ := mfAdd_params_total (readReg s p) (readReg s q)
  exact ⟨v, hv, by simp only [exec, execAddFloat, hv]⟩

/-! ### What an instruction can do -/

/-- An instruction completes by writing one register, by writing one cell of MEM, by setting the `pc`
alone, or by reporting an event; there is no other outcome (rules R80, R87, R201). -/
theorem exec_cases (i : Instr) (s : State) :
    (∃ d v, exec i s = .next (advance (writeReg s d v))) ∨
    (∃ a v, exec i s = .next (advance (writeMem s a v))) ∨
    (∃ t, exec i s = .next (setPc s t)) ∨
    (∃ e, exec i s = .next (advance (emit s e))) := by
  cases i with
  | addFloat d p q => obtain ⟨v, _, h⟩ := exec_addFloat d p q s; exact .inl ⟨d, v, h⟩
  | jumpIfEq r t => rw [exec_jumpIfEq]; split; exacts [.inr (.inr (.inl ⟨_, rfl⟩)), .inr (.inr (.inl ⟨_, rfl⟩))]
  | storeMem r a => exact .inr (.inl ⟨_, _, rfl⟩)
  | halt n => exact .inr (.inr (.inl ⟨s.pc, rfl⟩))
  | copyReg n => exact .inr (.inr (.inl ⟨_, rfl⟩))
  | addInt n => exact .inr (.inr (.inl ⟨_, rfl⟩))
  | extension n => exact .inr (.inr (.inl ⟨_, rfl⟩))
  | unsupported0 n => exact .inr (.inr (.inr ⟨_, rfl⟩))
  | unsupportedD n => exact .inr (.inr (.inr ⟨_, rfl⟩))
  | unsupportedF n => exact .inr (.inr (.inr ⟨_, rfl⟩))
  | _ => exact .inl ⟨_, _, rfl⟩

end Sys2Proof.Machine
end

