-- ==== Sys2Proof/Laws/Loader.lean ====
section
/-! SUPPORT. The loader: one equation per case of a byte and of a pair (spec/46_image_loader.md rules
R163 and R174 to R176). -/

namespace Sys2Proof.Machine

/-! ### A byte, by the phase -/

theorem loaderByte_err {P : Params} {s : State} {b : Byte} (h : s.ldr.ph = .err) :
    loaderByte P s b = s := by simp [loaderByte, h]

theorem loaderByte_full {P : Params} {s : State} {b : Byte} (h : s.ldr.ph ≠ .err)
    (hc : s.ldr.cnt = P.imgMaxStreamBytes) : loaderByte P s b = loaderError s .streamTooLong := by
  cases hp : s.ldr.ph <;> simp_all [loaderByte]

theorem loaderByte_addr {P : Params} {s : State} {b : Byte} (h : s.ldr.ph = .addr)
    (hc : s.ldr.cnt ≠ P.imgMaxStreamBytes) :
    loaderByte P s b =
      { s with ldr := { s.ldr with cnt := s.ldr.cnt + 1, aLat := b, ph := .val } } := by
  simp [loaderByte, h, hc, loaderCount]

theorem loaderByte_val {P : Params} {s : State} {b : Byte} (h : s.ldr.ph = .val)
    (hc : s.ldr.cnt ≠ P.imgMaxStreamBytes) : loaderByte P s b = loaderValue (loaderCount s) b := by
  simp [loaderByte, h, hc]

theorem loaderByte_blk {P : Params} {s : State} {b : Byte} (h : s.ldr.ph = .blk)
    (hc : s.ldr.cnt ≠ P.imgMaxStreamBytes) : loaderByte P s b = loaderBlock (loaderCount s) b := by
  simp [loaderByte, h, hc]

/-! ### The value byte of a pair -/

theorem loaderValue_entry {s : State} {v : Byte} (h : s.ldr.aLat = 0x00#8 ∧ s.ldr.pcSet = false) :
    loaderValue s v =
      { s with ipc := v, img := Image.write s.img 0x00#8 v, ldr := { s.ldr with pcSet := true, ph := .addr } } := by
  simp [loaderValue, h]

theorem loaderValue_pastMemory {s : State} {v : Byte} (h : s.ldr.pcSet = true ∧ s.ldr.aLat = s.ipc)
    (hv : 256 < s.ldr.aLat.toNat + v.toNat) : loaderValue s v = loaderError s .blockPastMemory := by
  rw [h.2] at hv
  simp [loaderValue, h, hv]

theorem loaderValue_emptyBlock {s : State} (h : s.ldr.pcSet = true ∧ s.ldr.aLat = s.ipc) :
    loaderValue s 0x00#8 = { s with ldr := { s.ldr with ph := .addr } } := by
  have : ¬ 256 < s.ipc.toNat := by omega
  simp [loaderValue, h, this]

theorem loaderValue_block {s : State} {v : Byte} (h : s.ldr.pcSet = true ∧ s.ldr.aLat = s.ipc)
    (hv : ¬ 256 < s.ldr.aLat.toNat + v.toNat) (h0 : v ≠ 0x00#8) :
    loaderValue s v = { s with ldr := { s.ldr with dst := s.ldr.aLat, rem := v, ph := .blk } } := by
  rw [h.2] at hv
  simp [loaderValue, h, hv, h0]

theorem loaderValue_plain {s : State} {v : Byte} (h : ¬ (s.ldr.aLat = 0x00#8 ∧ s.ldr.pcSet = false))
    (h' : ¬ (s.ldr.pcSet = true ∧ s.ldr.aLat = s.ipc)) :
    loaderValue s v = { s with img := Image.write s.img s.ldr.aLat v, ldr := { s.ldr with ph := .addr } } := by
  unfold loaderValue
  rw [if_neg h, if_neg h']

/-! ### A pair of the function form -/

theorem decodePairs_nil (fuel : Nat) (d : Decoded) : decodePairs fuel [] d = .ok d := by
  cases fuel <;> rfl

theorem decodePairs_entry {fuel : Nat} {a v : Byte} {rest : List Byte} {d : Decoded}
    (h : a = 0x00#8 ∧ d.pcSet = false) :
    decodePairs (fuel + 1) (a :: v :: rest) d = decodePairs fuel rest (setEntry d v) := by
  rw [decodePairs, if_pos h]

theorem decodePairs_plain {fuel : Nat} {a v : Byte} {rest : List Byte} {d : Decoded}
    (h : ¬ (a = 0x00#8 ∧ d.pcSet = false)) (h' : ¬ (d.pcSet = true ∧ a = d.ipc)) :
    decodePairs (fuel + 1) (a :: v :: rest) d = decodePairs fuel rest (plainWrite d a v) := by
  rw [decodePairs, if_neg h, if_neg h']

theorem decodePairs_block {fuel : Nat} {a v : Byte} {rest : List Byte} {d : Decoded}
    (h : d.pcSet = true ∧ a = d.ipc) :
    decodePairs (fuel + 1) (a :: v :: rest) d =
      (if 256 < a.toNat + v.toNat then .error .blockPastMemory
      else if rest.length < v.toNat then .error .truncatedBlock
      else decodePairs fuel (rest.drop v.toNat)
        { d with img := Image.copy d.img a (rest.take v.toNat) }) := by
  rw [decodePairs, if_neg (by simp [h.1]), if_pos h]

end Sys2Proof.Machine
end

