-- ==== Sys2Proof/Laws/PerInstr.lean ====
section
/-! SUPPORT. Families of statements about an instruction as syntax, one lemma per constructor. -/

namespace Sys2Proof.Laws.OpcodeField

/-- The instruction's word matches its row of spec/opcode_table.json: under the mask 0xF000 it is the
row's opcode value (spec/30_encoding.md rule R65). -/
def Statement (i : Instr) : Prop := opField (encode i) = i.opcode

theorem unsupported0 (ign : Low12) : Statement (.unsupported0 ign) := opField_append12 _ _
theorem loadMem (r : RegNum) (a : Byte) : Statement (.loadMem r a) := opField_append_4_8 _ _ _
theorem loadLiteral (r : RegNum) (v : Byte) : Statement (.loadLiteral r v) := opField_append_4_8 _ _ _
theorem storeMem (r : RegNum) (a : Byte) : Statement (.storeMem r a) := opField_append_4_8 _ _ _
theorem copyReg (ign : Low12) : Statement (.copyReg ign) := opField_append12 _ _
theorem addInt (ign : Low12) : Statement (.addInt ign) := opField_append12 _ _
theorem addFloat (d p q : RegNum) : Statement (.addFloat d p q) := opField_append_4_4_4 _ _ _ _
theorem orReg (d p q : RegNum) : Statement (.orReg d p q) := opField_append_4_4_4 _ _ _ _
theorem andReg (d p q : RegNum) : Statement (.andReg d p q) := opField_append_4_4_4 _ _ _ _
theorem xorReg (d p q : RegNum) : Statement (.xorReg d p q) := opField_append_4_4_4 _ _ _ _
theorem rotate (d : RegNum) (ign c : BitVec 4) : Statement (.rotate d ign c) := opField_append_4_4_4 _ _ _ _
theorem jumpIfEq (r : RegNum) (t : Byte) : Statement (.jumpIfEq r t) := opField_append_4_8 _ _ _
theorem halt (ign : Low12) : Statement (.halt ign) := opField_append12 _ _
theorem unsupportedD (ign : Low12) : Statement (.unsupportedD ign) := opField_append12 _ _
theorem extension (ign : Low12) : Statement (.extension ign) := opField_append12 _ _
theorem unsupportedF (ign : Low12) : Statement (.unsupportedF ign) := opField_append12 _ _

end Sys2Proof.Laws.OpcodeField
end

