-- ==== Sys2Proof/Tests/Slice0.lean ====
section
/-! SUPPORT. Tests, each one step on a small state or one call; expected values are those of
spec/95_test_vectors.md (the id stands in the name or the comment) or of a rule's own example. The
`witness_` theorems show, for each statement of Certificates/Slice0/Obligations.lean that has
hypotheses, concrete data that meets them. -/

namespace Sys2Proof.Tests

open Sys2Proof Sys2Proof.Machine

/-- The state after reset with these cells in MEM and this `pc`. -/
def mk (pc : Byte) (mem : List Host.Cell) : State := { State.reset with pc := pc, mem := mem }

/-- One step answers a next state that passes the check. -/
def after (s : State) (p : State → Bool) : Bool :=
  match step s with
  | .next t => p t
  | _ => false

/-! ### WellFormed: an ill-formed term for each check, refused -/

theorem test_wf_refuses_unsupported0 : (Instr.unsupported0 0#12).canonical = false := by decide
theorem test_wf_refuses_unsupportedD : (Instr.unsupportedD 0#12).canonical = false := by decide
theorem test_wf_refuses_unsupportedF : (Instr.unsupportedF 0#12).canonical = false := by decide
theorem test_wf_refuses_copyReg_fields : (Instr.copyReg 0x012#12).canonical = false := by decide
theorem test_wf_refuses_addInt_fields : (Instr.addInt 0x312#12).canonical = false := by decide
theorem test_wf_refuses_extension_fields : (Instr.extension 0xFFF#12).canonical = false := by decide
theorem test_wf_refuses_halt_fields : (Instr.halt 0x123#12).canonical = false := by decide
theorem test_wf_refuses_rotate_p2 : (Instr.rotate 4#4 0xF#4 1#4).canonical = false := by decide
theorem test_wf_accepts_rotate : (Instr.rotate 4#4 0#4 15#4).canonical = true := by decide

/-! ### Decode: one word of every row, written out from rules R63 and R65 -/

theorem test_decode_unsupported0 : decode 0b0000_1010_1011_1100#16 = .unsupported0 0xABC#12 := by decide
theorem test_decode_loadMem : decode 0b0001_0001_0100_0000#16 = .loadMem 1#4 0x40#8 := by decide
theorem test_decode_loadLiteral : decode 0b0010_0011_0111_1111#16 = .loadLiteral 3#4 0x7F#8 := by decide
theorem test_decode_storeMem : decode 0b0011_0011_1000_0000#16 = .storeMem 3#4 0x80#8 := by decide
theorem test_decode_copyReg : decode 0b0100_0000_0001_0010#16 = .copyReg 0x012#12 := by decide
theorem test_decode_addInt : decode 0b0101_0011_0001_0010#16 = .addInt 0x312#12 := by decide
theorem test_decode_addFloat : decode 0b0110_0011_0001_0010#16 = .addFloat 3#4 1#4 2#4 := by decide
theorem test_decode_orReg : decode 0b0111_0011_0001_0010#16 = .orReg 3#4 1#4 2#4 := by decide
theorem test_decode_andReg : decode 0b1000_0100_0001_0010#16 = .andReg 4#4 1#4 2#4 := by decide
theorem test_decode_xorReg : decode 0b1001_0101_0011_0001#16 = .xorReg 5#4 3#4 1#4 := by decide
theorem test_decode_rotate : decode 0b1010_0100_1111_0001#16 = .rotate 4#4 0xF#4 1#4 := by decide
theorem test_decode_jumpIfEq : decode 0b1011_0001_0001_1110#16 = .jumpIfEq 1#4 0x1E#8 := by decide
theorem test_decode_halt : decode 0b1100_0001_0010_0011#16 = .halt 0x123#12 := by decide
theorem test_decode_unsupportedD : decode 0b1101_0000_0000_0000#16 = .unsupportedD 0#12 := by decide
theorem test_decode_extension : decode 0b1110_1111_1111_1111#16 = .extension 0xFFF#12 := by decide
theorem test_decode_unsupportedF : decode 0b1111_1100_0000_0000#16 = .unsupportedF 0xC00#12 := by decide
theorem test_decode_one_byte_is_truncated : decodeBytes params [0x23#8] = .error .truncated := by decide
theorem test_decodeTableWord : decodeTableWord 16 0xA401 = some (.rotate 4#4 0#4 1#4) := by decide

/-! ### One step of every instruction -/

/-- DM1. -/
theorem test_loadMem : after (mk 0x10#8 [(0x10, 0x11#8), (0x11, 0x40#8), (0x40, 0x0F#8)])
    (fun t => readReg t 1#4 == 0x0F#8 && t.pc == 0x12#8 && t.ir == 0x1140#16) = true := by decide
/-- DM3: a load of the instruction's own byte. -/
theorem test_loadMem_own_byte : after (mk 0x30#8 [(0x30, 0x15#8), (0x31, 0x31#8)])
    (fun t => readReg t 5#4 == 0x31#8) = true := by decide
/-- CY1, S7. -/
theorem test_loadLiteral : after (mk 0x10#8 [(0x10, 0x23#8), (0x11, 0x7F#8)])
    (fun t => readReg t 3#4 == 0x7F#8 && t.pc == 0x12#8 && readReg t 4#4 == 0x00#8) = true := by decide
/-- CY2: the `pc` wraps. -/
theorem test_loadLiteral_wraps_pc : after (mk 0xFE#8 [(0xFE, 0x21#8), (0xFF, 0x01#8)])
    (fun t => readReg t 1#4 == 0x01#8 && t.pc == 0x00#8) = true := by decide
/-- CY6: a store into the instruction's own second byte. -/
theorem test_storeMem_own_byte :
    after (writeReg (mk 0x20#8 [(0x20, 0x33#8), (0x21, 0x21#8)]) 3#4 0xC0#8)
    (fun t => t.memAt 0x21#8 == 0xC0#8 && t.pc == 0x22#8 && t.ir == 0x3321#16) = true := by decide
/-- DM8. -/
theorem test_storeMem_top : after (writeReg (mk 0x10#8 [(0x10, 0x31#8), (0x11, 0xFF#8)]) 1#4 0xAB#8)
    (fun t => t.memAt 0xFF#8 == 0xAB#8 && readReg t 1#4 == 0xAB#8) = true := by decide
/-- RU1. -/
theorem test_copyReg :
    after (writeReg (writeReg (mk 0x10#8 [(0x10, 0x40#8), (0x11, 0x12#8)]) 1#4 0xAA#8) 2#4 0x55#8)
    (fun t => readReg t 0#4 == 0x00#8 && readReg t 1#4 == 0xAA#8 && t.pc == 0x12#8 && t.report == none) = true := by
  decide
/-- RU2. -/
theorem test_addInt :
    after (writeReg (writeReg (mk 0x10#8 [(0x10, 0x53#8), (0x11, 0x12#8)]) 1#4 0x01#8) 3#4 0x09#8)
    (fun t => readReg t 3#4 == 0x09#8 && t.pc == 0x12#8 && t.report == none) = true := by decide
/-- RU3. -/
theorem test_extension : after (mk 0x10#8 [(0x10, 0xEF#8), (0x11, 0xFF#8)])
    (fun t => t == { mk 0x12#8 [(0x10, 0xEF#8), (0x11, 0xFF#8)] with ir := 0xEFFF#16 }) = true := by decide
/-- RU7. -/
theorem test_unsupported0 : after (mk 0x10#8 [(0x10, 0x0A#8), (0x11, 0xBC#8)])
    (fun t => t.pc == 0x12#8 && t.report == some (.unsupportedInstruction 0x0#4 0x10#8)) = true := by decide
/-- RU5. -/
theorem test_unsupportedD : after (mk 0xFE#8 [(0xFE, 0xD0#8), (0xFF, 0x00#8)])
    (fun t => t.pc == 0x00#8 && t.report == some (.unsupportedInstruction 0xD#4 0xFE#8)) = true := by decide
/-- RU6. -/
theorem test_unsupportedF : after (mk 0x00#8 [(0x00, 0xFC#8), (0x01, 0x00#8)])
    (fun t => t.pc == 0x02#8 && t.report == some (.unsupportedInstruction 0xF#4 0x00#8)) = true := by decide
/-- AF1. -/
theorem test_addFloat :
    after (writeReg (writeReg (mk 0x10#8 [(0x10, 0x63#8), (0x11, 0x12#8)]) 1#4 0x34#8) 2#4 0x2C#8)
    (fun t => readReg t 3#4 == 0x41#8 && t.pc == 0x12#8) = true := by decide
/-- AF2: the destination is both sources. -/
theorem test_addFloat_in_place : after (writeReg (mk 0x10#8 [(0x10, 0x62#8), (0x11, 0x22#8)]) 2#4 0x30#8)
    (fun t => readReg t 2#4 == 0x40#8) = true := by decide
/-- LR6. -/
theorem test_orReg :
    after (writeReg (writeReg (mk 0x10#8 [(0x10, 0x71#8), (0x11, 0x12#8)]) 1#4 0xCC#8) 2#4 0xAA#8)
    (fun t => readReg t 1#4 == 0xEE#8) = true := by decide
/-- LR6. -/
theorem test_andReg :
    after (writeReg (writeReg (mk 0x10#8 [(0x10, 0x81#8), (0x11, 0x12#8)]) 1#4 0xCC#8) 2#4 0xAA#8)
    (fun t => readReg t 1#4 == 0x88#8) = true := by decide
/-- LR6. -/
theorem test_xorReg :
    after (writeReg (writeReg (mk 0x10#8 [(0x10, 0x91#8), (0x11, 0x12#8)]) 1#4 0xCC#8) 2#4 0xAA#8)
    (fun t => readReg t 1#4 == 0x66#8) = true := by decide
/-- LR9, S8: `p2` is ignored. -/
theorem test_rotate : after (writeReg (mk 0x10#8 [(0x10, 0xA4#8), (0x11, 0xF1#8)]) 4#4 0x81#8)
    (fun t => readReg t 4#4 == 0xC0#8) = true := by decide
/-- LR10 with the count 3 + 8, as LR8: the count is taken modulo 8. -/
theorem test_rotate_count_mod_8 : after (writeReg (mk 0x10#8 [(0x10, 0xA1#8), (0x11, 0x0B#8)]) 1#4 0xB4#8)
    (fun t => readReg t 1#4 == 0x96#8) = true := by decide
/-- CT1. -/
theorem test_jumpIfEq_taken :
    after (writeReg (writeReg (mk 0x1A#8 [(0x1A, 0xB1#8), (0x1B, 0x1E#8)]) 0#4 0x01#8) 1#4 0x01#8)
    (fun t => t.pc == 0x1E#8) = true := by decide
/-- CT5: 0x00 and 0x80 are different bytes. -/
theorem test_jumpIfEq_not_taken : after (writeReg (mk 0x10#8 [(0x10, 0xB2#8), (0x11, 0x50#8)]) 2#4 0x80#8)
    (fun t => t.pc == 0x12#8) = true := by decide
/-- CT9: the low bits are ignored. -/
theorem test_halt : after (mk 0x18#8 [(0x18, 0xC1#8), (0x19, 0x23#8)])
    (fun t => t.pc == 0x18#8 && t.ir == 0xC123#16 && halted t) = true := by decide
/-- CT10. -/
theorem test_halt_at_254 : after (mk 0xFE#8 [(0xFE, 0xC0#8), (0xFF, 0x00#8)])
    (fun t => t.pc == 0xFE#8 && halted t) = true := by decide

/-- CY3. -/
theorem test_fetch_at_255 : (match step (mk 0xFF#8 [(0x00, 0x21#8), (0xFF, 0x21#8)]) with
    | .fault f => f == .fetchOutOfBounds 0xFF#8
    | _ => false) = true := by decide
/-- U14: the instruction runs on a cell that nothing has written, and `x[1]` receives what the cell holds. -/
theorem test_unwritten_cell : (match step (mk 0x10#8 [(0x10, 0x11#8), (0x11, 0x40#8)]) with
    | .next t => readReg t 1#4 = Config.initialMem 0x40 ∧ t.pc = 0x12#8
    | _ => False) := ⟨rfl, rfl⟩
/-- The host's question: the word stored by `withFetchWord` runs as the first instruction. -/
theorem test_withFetchWord : after (State.reset.withFetchWord 16 0x237F)
    (fun t => readReg t 3#4 == 0x7F#8 && t.pc == 0x02#8) = true := by decide

/-! ### Minifloat -/

/-- The Widen row of section 5. -/
theorem test_widen : [0x00#8, 0x01#8, 0x0F#8, 0x38#8, 0x7F#8, 0x80#8, 0xB0#8, 0xFF#8].map widen
    = [16, 17, 31, 192, 3968, -16, -128, -3968] := by decide
/-- The Narrow rows of section 5. -/
theorem test_narrow : [0, 1, 15, 16, 33, 265, 4095, 4096, 4111, 7936, -1, -16, -272, -4096].map (narrow params)
    = [0x00#8, 0x00#8, 0x00#8, 0x00#8, 0x10#8, 0x40#8, 0x7F#8, 0x00#8, 0x00#8, 0x7E#8, 0x00#8, 0x80#8,
       0xC1#8, 0x00#8].map some := by decide
/-- MF10, MF13, MF17, MF24, MF27, MF31, MF33. -/
theorem test_mfAdd : [mfAdd params 0xB4#8 0x2C#8, mfAdd params 0x3F#8 0x01#8, mfAdd params 0x7F#8 0xF0#8,
      mfAdd params 0x0F#8 0x8E#8, mfAdd params 0xFF#8 0xFF#8, mfAdd params 0x7F#8 0x60#8, mfAdd params 0x00#8 0x80#8]
    = [0x98#8, 0x40#8, 0x6E#8, 0x00#8, 0xFE#8, 0x5C#8, 0x80#8].map some := by decide

/-! ### The loader -/

/-- LD3, C3: a later address-0 pair is a plain write and `ipc` is kept. -/
theorem test_decode_LD3 : decodeStream params [0x00#8, 0x10#8, 0x00#8, 0x33#8]
    = .ok { img := [(0x00, 0x33#8)], ipc := 0x10#8, pcSet := true } := by decide
/-- LD5. -/
theorem test_decode_LD5 : decodeStream params [0x00#8, 0xFE#8, 0xFE#8, 0x03#8, 0x01#8, 0x02#8, 0x03#8]
    = .error .blockPastMemory := by decide
/-- LD9: a pair at the future `ipc` before the program-counter pair is a plain write. -/
theorem test_decode_LD9 : decodeStream params [0x10#8, 0x03#8, 0x00#8, 0x10#8]
    = .ok { img := [(0x00, 0x10#8), (0x10, 0x03#8)], ipc := 0x10#8, pcSet := true } := by decide
/-- LD15: block bytes are data. -/
theorem test_decode_LD15 : decodeStream params [0x00#8, 0x02#8, 0x02#8, 0x02#8, 0x02#8, 0x02#8, 0x07#8, 0x09#8]
    = .ok { img := [(0x00, 0x02#8), (0x02, 0x02#8), (0x03, 0x02#8), (0x07, 0x09#8)], ipc := 0x02#8, pcSet := true } := by
  decide
/-- LD2 byte by byte. -/
theorem test_serial_LD2 :
    (loaderRun params State.reset [0x00#8, 0x02#8, 0x02#8, 0x03#8, 0x11#8, 0x22#8, 0x33#8]).img
      = [(0x00, 0x02#8), (0x02, 0x11#8), (0x03, 0x22#8), (0x04, 0x33#8)] := by decide
/-- LD7 byte by byte: the phase is VAL, so `End` is TruncatedPair. -/
theorem test_serial_LD7 : (match loaderEndOp (loaderRun params State.reset [0x00#8, 0x10#8, 0x05#8]) with
    | .error t f => f == .formatError (some .truncatedPair) && !t.imgValid
    | _ => false) = true := by decide
/-- LS3. -/
theorem test_loadImage_without_image : (match perform .loadImage State.reset with
    | .error t f => t == State.reset && f == .noImage
    | _ => false) = true := by decide

/-! ### Witnesses: concrete data that meets the hypotheses of the statements -/

/-- LOAD-LITERAL r3, 0x7F at 0x10. -/
def sLit : State := mk 0x10#8 [(0x10, 0x23#8), (0x11, 0x7F#8)]
/-- The state after `sLit`'s Cycle. -/
def tLit : State := { writeReg (mk 0x12#8 sLit.mem) 3#4 0x7F#8 with ir := 0x237F#16 }
/-- HALT at 0x18. -/
def sHalt : State := mk 0x18#8 [(0x18, 0xC0#8), (0x19, 0x00#8)]
/-- The state after `sHalt`'s Cycle. -/
def tHalt : State := { sHalt with ir := 0xC000#16 }
/-- Every cell of MEM holds 0x00. -/
def sFull (pc : Byte) : State := { State.reset with pc := pc, mem := Image.toMemory [] }
/-- The loader in the phase VAL, with the address latch, the entry point and `pc_set` given. -/
def sVal (a e : Byte) (set : Bool) : State :=
  { State.reset with ipc := e, ldr := { State.reset.ldr with ph := .val, aLat := a, pcSet := set } }
/-- The loader in the phase BLK. -/
def sBlk (dst rem : Byte) : State :=
  { State.reset with ldr := { State.reset.ldr with ph := .blk, dst := dst, rem := rem } }

theorem witness_IgnoredFieldsHaveNoEffect : (1#4).toNat % 8 = (9#4).toNat % 8 := by decide
theorem witness_StoreMemWritesTheCell_high :
    (∀ t, exec (.storeMem 2#4 0x22#8) (mk 0x20#8 []) = .next t →
      (mk 0x22#8 [(0x22, 0x00#8)]).memAt 0x22#8 = t.memAt 0x22#8) ∧
    (mk 0x22#8 [(0x22, 0x00#8)]).pc ≠ 255#8 ∧ (mk 0x22#8 [(0x22, 0x00#8)]).pc = 0x22#8 :=
  ⟨fun t h => by cases h; decide, by decide, by decide⟩
theorem witness_StoreMemWritesTheCell_low :
    (∀ t, exec (.storeMem 2#4 0xFF#8) (mk 0x20#8 []) = .next t →
      (mk 0xFE#8 [(0xFF, 0x00#8)]).memAt 0xFF#8 = t.memAt 0xFF#8) ∧
    (mk 0xFE#8 [(0xFF, 0x00#8)]).pc ≠ 255#8 ∧ (mk 0xFE#8 [(0xFF, 0x00#8)]).pc + 1#8 = 0xFF#8 :=
  ⟨fun t h => by cases h; decide, by decide, by decide⟩
theorem witness_AddFloatWritesTheSum :
    (1#4 : RegNum) = 1#4 ∧ readReg (writeReg sLit 1#4 0x6F#8) 1#4 ≠ 0x00#8 ∧
    mfExp (readReg (writeReg sLit 1#4 0x6F#8) 1#4) < 7 := by decide
theorem witness_OrWritesBitwiseOr : (2#4 : RegNum) = 2#4 := rfl
theorem witness_AndWritesBitwiseAnd : (2#4 : RegNum) = 2#4 ∧ readReg State.reset 2#4 = 0x00#8 := by decide
theorem witness_XorWritesBitwiseXor :
    (2#4 : RegNum) = 2#4 ∧ readReg (writeReg State.reset 2#4 0xFF#8) 2#4 = 0xFF#8 ∧
    readReg (writeReg State.reset 2#4 0x80#8) 2#4 = 0x80#8 := by decide
theorem witness_RotateMovesEveryBitRight :
    (7 < 8) ∧ (8#4 = 0#4 ∨ 8#4 = 8#4) ∧ readReg State.reset 2#4 = 0x00#8 ∧
    readReg (writeReg State.reset 2#4 0xFF#8) 2#4 = 0xFF#8 := by decide
theorem witness_JumpIfEqSetsOnlyThePc :
    readReg State.reset 1#4 = readReg State.reset 0#4 ∧
    readReg (writeReg State.reset 1#4 0x80#8) 1#4 ≠ readReg (writeReg State.reset 1#4 0x80#8) 0#4 := by decide
theorem witness_JumpIfEqSetsOnlyThePc_top :
    ∃ u, exec (.jumpIfEq 1#4 0xFF#8) State.reset = .next u ∧ u.pc = 255#8 := ⟨_, rfl, by decide⟩
theorem witness_HaltKeepsEverything : fetchWord params sHalt = .ok (encode (.halt 0#12)) := rfl
theorem witness_StepRunsTheDecodedInstruction :
    sLit.pc ≠ 255#8 ∧
    decodeBytes params [sLit.memAt sLit.pc, sLit.memAt (sLit.pc + 1#8)] = .ok (.loadLiteral 3#4 0x7F#8, []) := by decide
theorem witness_FetchAtTheTopFaults : (mk 0xFF#8 []).pc = 255#8 := rfl
theorem step_sLit : step sLit = .next tLit := rfl
theorem step_sHalt : step sHalt = .next tHalt := rfl
theorem witness_IrAndPcAfterACycle : step sLit = .next tLit := step_sLit
theorem witness_CycleWritesAtMostOnePlace_reg :
    step sLit = .next tLit ∧ readReg tLit 3#4 ≠ readReg sLit 3#4 := ⟨step_sLit, by decide⟩
theorem witness_CycleWritesAtMostOnePlace_mem :
    ∃ t, step (writeReg (mk 0x10#8 [(0x10, 0x31#8), (0x11, 0xFF#8), (0xFF, 0x00#8)]) 1#4 0xAB#8) = .next t ∧
      t.memAt 0xFF#8 ≠ (mk 0x10#8 [(0x10, 0x31#8), (0x11, 0xFF#8), (0xFF, 0x00#8)]).memAt 0xFF#8 := ⟨_, rfl, by decide⟩
theorem witness_CycleReportsUnsupportedOpcodes :
    ∃ t, step (mk 0xFE#8 [(0xFE, 0xD0#8), (0xFF, 0x00#8)]) = .next t ∧ t.report.isSome = true := ⟨_, rfl, by decide⟩
theorem witness_HaltedDependsOnTheFetchedOpcode_halt : step sHalt = .next tHalt ∧ halted tHalt = true :=
  ⟨step_sHalt, by decide⟩
theorem witness_HaltedDependsOnTheFetchedOpcode_jump :
    ∃ t, step (mk 0x10#8 [(0x10, 0xB0#8), (0x11, 0x16#8)]) = .next t ∧ opField t.ir = 0xB#4 := ⟨_, rfl, by decide⟩
theorem witness_StoreIsSeenByTheNextFetch_first :
    ∃ t, exec (.storeMem 2#4 0x22#8) (mk 0x20#8 []) = .next t ∧ (mk 0x20#8 []).pc ≠ 253#8 ∧
      (0x22#8 : Byte) = (mk 0x20#8 []).pc + 2#8 := ⟨_, rfl, by decide, by decide⟩
theorem witness_StoreIsSeenByTheNextFetch_second :
    ∃ t, exec (.storeMem 2#4 0xFF#8) (mk 0xFC#8 []) = .next t ∧ (mk 0xFC#8 []).pc ≠ 253#8 ∧
      (0xFF#8 : Byte) = (mk 0xFC#8 []).pc + 3#8 := ⟨_, rfl, by decide, by decide⟩
theorem full_sFull (pc : Byte) : Memory.full (sFull pc).mem := Image.toMemory_full []
theorem witness_CycleOutcomes : (mk 0xFE#8 []).pc ≠ 255#8 ∧ (mk 0xFF#8 []).pc = 255#8 := by decide
theorem witness_WrittenCellsStayWritten :
    (∃ t, (perform .loadImage { State.reset with imgValid := true }).EndsOk t) ∧
    Memory.written sLit.mem 0x11#8 = true ∧ (sFull 0xFE#8).Safe :=
  ⟨⟨_, _, _, rfl⟩, by decide, full_sFull _, by decide⟩
theorem witness_CycleDependsOnTheProcessorAlone_next :
    (∀ i, readReg sLit i = readReg { sLit with ir := 0xC000#16, imgValid := true } i) ∧
    (∀ a, sLit.memAt a = State.memAt { sLit with ir := 0xC000#16, imgValid := true } a) ∧
    step sLit = .next tLit := ⟨fun _ => rfl, fun _ => rfl, step_sLit⟩
theorem witness_CycleDependsOnTheProcessorAlone_fault :
    step (mk 0xFF#8 []) = .fault (.fetchOutOfBounds 255#8) := rfl
theorem witness_CanonicalFormsAreKept : sLit.Wf ∧ step sLit = .next tLit := ⟨⟨by decide, by decide⟩, step_sLit⟩
theorem witness_LoaderKeepsItsBlockInBounds :
    (sBlk 0xFF#8 0x01#8).LoaderWf params ∧ (∀ stream, Operation.loaderByte 0x00#8 ≠ .decode stream) ∧
    (Operation.loaderByte 0x00#8 = .loaderEnd → (sBlk 0xFF#8 0x01#8).ldr.ph = .addr) :=
  ⟨⟨fun _ => by decide, by decide, by decide⟩, (fun _ h => by cases h), (fun h => by cases h)⟩
theorem witness_LoadImageCopiesEveryCell :
    State.imgValid { State.reset with imgValid := true } = true ∧ State.reset.imgValid = false := by decide
theorem witness_OnlyTheseOperationsWriteTheProcessor :
    Operation.observe ≠ .cycle ∧ Operation.observe ≠ .reset ∧ Operation.observe ≠ .start ∧
    Operation.observe ≠ .loadImage ∧ ∀ a v, Operation.observe ≠ .hostWrite a v :=
  ⟨by decide, by decide, by decide, by decide, fun _ _ h => by cases h⟩
theorem witness_LaunchState_ok :
    (ImageSource.pairs []).decoded = .ok ([], 0x00#8) ∧
    (∃ t, (performAll (launchOps (.pairs [])) State.reset).EndsOk t) ∧
    ∃ t, (performAll (launchOpsExchanged (.pairs [])) State.reset).EndsOk t :=
  ⟨rfl, ⟨_, _, _, rfl⟩, _, _, _, rfl⟩
theorem witness_LaunchState_error :
    (ImageSource.pairs [0x05#8]).decoded = .error .truncatedPair ∧
    (ImageSource.raw [0x05#8]).decoded = .error .rawTooShort := ⟨rfl, rfl⟩
theorem witness_ByteIsCountedAndLatched :
    State.reset.ldr.ph = .addr ∧ State.reset.ldr.cnt ≠ 512 ∧ (loaderError State.reset .streamTooLong).ldr.ph = .err ∧
    State.reset.ldr.ph ≠ .err ∧ (512 : Nat) = (State.ldr { State.reset with ldr := { State.reset.ldr with cnt := 512 } }).cnt := by
  decide
theorem witness_ValueByteEndsThePair_entry :
    (sVal 0x00#8 0x00#8 false).ldr.ph = .val ∧ (sVal 0x00#8 0x00#8 false).ldr.cnt ≠ 512 ∧
    (sVal 0x00#8 0x00#8 false).ldr.aLat = 0x00#8 ∧ (sVal 0x00#8 0x00#8 false).ldr.pcSet = false := by decide
theorem witness_ValueByteEndsThePair_block :
    (sVal 0xFE#8 0xFE#8 true).ldr.pcSet = true ∧ (sVal 0xFE#8 0xFE#8 true).ldr.aLat = (sVal 0xFE#8 0xFE#8 true).ipc ∧
    256 < (0xFE#8).toNat + (0x03#8).toNat ∧ (0xFE#8).toNat + (0x02#8).toNat ≤ 256 := by decide
theorem witness_ValueByteEndsThePair_plain :
    ¬ ((sVal 0x00#8 0x10#8 true).ldr.aLat = 0x00#8 ∧ (sVal 0x00#8 0x10#8 true).ldr.pcSet = false) ∧
    ¬ ((sVal 0x00#8 0x10#8 true).ldr.pcSet = true ∧ (sVal 0x00#8 0x10#8 true).ldr.aLat = (sVal 0x00#8 0x10#8 true).ipc) := by
  decide
theorem witness_BlockByteIsCopied :
    (sBlk 0xFF#8 0x01#8).ldr.ph = .blk ∧ (sBlk 0xFF#8 0x01#8).ldr.cnt ≠ 512 ∧
    (sBlk 0xFF#8 0x01#8).ldr.rem = 1#8 ∧ (sBlk 0x00#8 0xFF#8).ldr.rem ≠ 1#8 := by decide
theorem witness_EndOutcomeByPhase :
    State.reset.ldr.ph = .addr ∧ (loaderError State.reset .streamTooLong).ldr.ph = .err ∧
    (sVal 0x00#8 0x00#8 false).ldr.ph = .val ∧ (sBlk 0x00#8 0x01#8).ldr.ph = .blk := by decide
theorem witness_SerialLoaderAgreesWithDecode :
    (performAll ([.loaderBegin] ++ ([] : List Byte).map .loaderByte) State.reset).EndsOk (loaderBegin State.reset) ∧
    (perform .loaderEnd (loaderBegin State.reset)).EndsOk (loaderEnd (loaderBegin State.reset)) ∧
    ∃ v, (perform (.decode []) State.reset).EndsOk v := ⟨⟨_, _, rfl⟩, ⟨_, _, rfl⟩, _, _, _, rfl⟩
theorem witness_FailedDecodeIsInvisible :
    ∃ t f, perform (.decode [0x05#8]) State.reset = .error t f ∧
      ∃ t' f', perform (.decodeRaw []) State.reset = .error t' f' ∧
        ∃ t'' f'', perform .loaderEnd (sBlk 0x00#8 0x01#8) = .error t'' f'' :=
  ⟨_, _, rfl, _, _, rfl, _, _, rfl⟩
theorem witness_DecodeTakesOnePairAtATime :
    emptyDecoded.pcSet = false ∧ (setEntry emptyDecoded 0x10#8).pcSet = true ∧
    (0x10#8 : Byte) = (setEntry emptyDecoded 0x10#8).ipc ∧ (0x10#8).toNat + (0xF0#8).toNat ≤ 256 ∧
    (0xF0#8).toNat ≤ (List.replicate 240 0x11#8).length ∧
    ¬ ((0x05#8 : Byte) = 0x00#8 ∧ emptyDecoded.pcSet = false) ∧
    ¬ (emptyDecoded.pcSet = true ∧ (0x05#8 : Byte) = emptyDecoded.ipc) := by
  refine ⟨by decide, by decide, by decide, by decide, ?_, by decide, by decide⟩
  rw [List.length_replicate]; decide
theorem witness_FormatErrors :
    512 < (List.replicate 513 0x00#8).length ∧ (setEntry emptyDecoded 0x10#8).pcSet = true ∧
    256 < (setEntry emptyDecoded 0x10#8).ipc.toNat + (0xF1#8).toNat ∧
    (setEntry emptyDecoded 0x10#8).ipc.toNat + (0xF0#8).toNat ≤ 256 ∧ ([] : List Byte).length < (0xF0#8).toNat ∧
    decodeStream params [0x05#8] = .error .truncatedPair := by
  refine ⟨?_, by decide, by decide, by decide, by decide, rfl⟩
  rw [List.length_replicate]; decide
theorem witness_RawDumpRoundTrips :
    (List.replicate 256 0xAA#8).length = 256 ∧ 256 < (List.replicate 257 0xAA#8).length ∧
    (List.replicate 255 0xAA#8).length < 256 := by
  refine ⟨?_, ?_, ?_⟩ <;> rw [List.length_replicate] <;> decide
theorem witness_EncodeReturnsTheImage :
    State.imgValid { State.reset with imgValid := true } = true ∧ State.reset.imgValid = false := by decide
theorem witness_NormaliseFindsTheLeadingOne : 0 < 1 ∧ 1 < 4096 ∧ 0 < 4095 ∧ 4095 < 4096 := by decide
theorem witness_NarrowTruncatesTowardZero :
    16 ≤ (16 : Int).natAbs ∧ (16 : Int).natAbs ≤ 4095 ∧ 16 ≤ (-4095 : Int).natAbs ∧ (-4095 : Int).natAbs ≤ 4095 ∧
    (16 : Int).natAbs % 2 ^ ((16 : Int).natAbs.log2 - 4) = 0 := by decide
theorem witness_NarrowOutsideTheNormalRange :
    ((16 : Int) < 0 ↔ (4112 : Int) < 0) ∧ (16 : Int).natAbs % 4096 = (4112 : Int).natAbs % 4096 := by decide
theorem witness_FixedPointSumIsExact : (14 : Nat) ≤ 14 := Nat.le_refl _
theorem witness_MfAddLaws : (0x01#8 : Byte) ≠ 0x00#8 ∧ (0x01#8 : Byte) ≠ 0x80#8 := by decide
theorem witness_RunEndsInOneOfThreeWays : (runLoop 1 sLit).1 = .stillRunning tLit ∧ 0 < 1 := ⟨rfl, by decide⟩
theorem witness_RunEndIsStable :
    (1 ≤ 2) ∧ (runLoop 1 sHalt).1 = .halted tHalt ∧
    (runLoop 1 (mk 0xFF#8 [])).1 = .faulted (mk 0xFF#8 []) (.fetchOutOfBounds 255#8) := ⟨by decide, rfl, rfl⟩
theorem witness_ZeroFilledMemoryNeverHalts :
    (∀ a, (sFull 0xFE#8).memAt a = 0x00#8) ∧ (sFull 0xFE#8).pc.toNat % 2 = 0 ∧
    (sFull 0xFF#8).pc.toNat % 2 = 1 := ⟨fun a => Image.toMemory_read [] a, by decide, by decide⟩
theorem witness_AlternativesNotTaken :
    (mk 0xFF#8 []).pc = 255#8 ∧ (-4096 : Int).natAbs % 4096 = 0 ∧
    1 ≤ (-1 : Int).natAbs % 4096 ∧ (-1 : Int).natAbs % 4096 ≤ 15 ∧ (4111 : Int).natAbs % 4096 ≤ 15 ∧
    256 < 257 ∧ ([] : List Byte).length ≤ 256 := by decide

end Sys2Proof.Tests
end

section
/-! SUPPORT. What the byte listing of MEM holds, what a write of one cell leaves, and IMG after a run of
bytes is copied into it (spec/10_state.md rules R13 and R33,
spec/46_image_loader.md rules R165, R170 and R171). -/

namespace Sys2Proof.Machine

theorem length_addresses (n : Nat) : (addresses n).length = n := by simp [addresses]

theorem getElem?_map_addresses (f : Byte → Byte) (b : Byte) :
    ((addresses 256).map f)[b.toNat]? = some (f b) := by
  have hb : b.toNat < 256 := b.isLt
  simp [addresses, hb]

@[simp] theorem Memory.length_bytes (m : Memory) : (Memory.bytes m).length = 256 := by
  rw [Memory.bytes, List.length_map, length_addresses]

theorem Memory.getElem?_bytes (m : Memory) (b : Byte) :
    (Memory.bytes m)[b.toNat]? = some (Memory.read m b) := getElem?_map_addresses _ b

/-- A write of one cell is all that `writeMem` does (rule R41). -/
theorem writeMem_writesMem (s : State) (a v : Byte) : s.WritesMem (writeMem s a v) a v := by
  refine ⟨?_, fun b hb => ?_, fun _ => rfl, rfl, rfl, rfl, rfl, rfl, rfl⟩
  · exact (readMem_writeMem s a v a).trans (if_pos rfl)
  · exact (readMem_writeMem s a v b).trans (if_neg hb)

/-- At most 256 bytes copied into IMG do not overlap: the cell at the offset `k` from the start holds the
byte number `k`, and a cell beyond the last byte is as before. -/
theorem Image.read_copy (g : Image) (a b : Byte) (bs : List Byte) (h : bs.length ≤ 256) :
    Image.read (Image.copy g a bs) b = (bs[(b - a).toNat]?).getD (Image.read g b) := by
  induction bs generalizing g a with
  | nil => rfl
  | cons v bs ih =>
    rw [List.length_cons] at h
    rw [Image.copy, ih _ _ (by omega), Image.read_write]
    by_cases hb : b = a
    · have hlast : (b - (a + 1)).toNat = 255 := by subst hb; bv_omega
      have hnone : bs[(b - (a + 1)).toNat]? = none := List.getElem?_eq_none (by omega)
      rw [hnone, if_pos hb, hb, BitVec.sub_self]; rfl
    · have hnext : (b - a).toNat = (b - (a + 1)).toNat + 1 := by bv_omega
      rw [if_neg hb, hnext, List.getElem?_cons_succ]

end Sys2Proof.Machine
end

section
/-! SUPPORT. The minifloat codec's bounds, and `Narrow` and `MfAdd` by the window of the sum, for any
parameters (spec/43_minifloat.md rules R115 to R121 and R124). -/

namespace Sys2Proof.Machine

theorem significand_le (m : Byte) : significand m ≤ 31 := by
  have hM : mfMant m < 2 ^ 5 := (BitVec.isLt _).trans (by decide)
  exact Nat.le_of_lt_succ (Nat.or_lt_two_pow hM (by decide))

/-- The greatest magnitude is that of the significand 31 at the true exponent 4 (rule R116). -/
theorem widenMag_le (m : Byte) : widenMag m ≤ 3968 := by
  have hS : significand m <<< 3 ≤ 248 := by
    have := significand_le m
    rw [Nat.shiftLeft_eq]; omega
  have hE : mfExp m < 8 := BitVec.isLt _
  unfold widenMag
  dsimp only
  split
  · calc (significand m <<< 3) <<< ((mfExp m : Int) - 3).toNat
        = (significand m <<< 3) * 2 ^ ((mfExp m : Int) - 3).toNat := Nat.shiftLeft_eq ..
      _ ≤ 248 * 2 ^ 4 := Nat.mul_le_mul hS (Nat.pow_le_pow_right (by decide) (by omega))
  · calc (significand m <<< 3) >>> (-((mfExp m : Int) - 3)).toNat
        ≤ significand m <<< 3 := Nat.shiftRight_le ..
      _ ≤ 3968 := by omega

theorem natAbs_widen (m : Byte) : (widen m).natAbs = widenMag m := by
  unfold widen; split <;> simp

/-- The sum of two operands fits every fixed-point word of at least 14 bits (rules R117, R125). -/
theorem fixedAdd_widen {P : Params} (h : 14 ≤ P.fixedWidth) (a b : Byte) :
    fixedAdd P (widen a) (widen b) = widen a + widen b := by
  have ha := natAbs_widen a ▸ widenMag_le a
  have hb := natAbs_widen b ▸ widenMag_le b
  have hpow : (2 : Int) ^ 13 ≤ 2 ^ (P.fixedWidth - 1) := pow_le_pow_right₀ (by decide) (by omega)
  exact BitVec.toInt_ofInt_eq_self (by omega) (by omega) (by omega)

theorem narrow_zero {P : Params} {v : Int} (h : v.natAbs % 4096 = 0) : narrow P v = P.narrowZero := by
  simp [narrow, h]

theorem narrow_nonzero_isSome {P : Params} {v : Int} (h : v.natAbs % 4096 ≠ 0) :
    (narrow P v).isSome = true := by
  rw [narrow, if_neg h]
  dsimp only
  split <;> rfl

/-- A window of 1 to 15 needs more than seven shifts to bring its leading one to bit 11. -/
theorem normalise_of_lt_16 : ∀ w < 16, 1 ≤ w → 7 < (normalise 11 w 0).2 := by decide

theorem narrow_underflow {P : Params} {v : Int} (h1 : 1 ≤ v.natAbs % 4096) (h2 : v.natAbs % 4096 ≤ 15) :
    narrow P v = some (P.narrowUnderflow (decide (v < 0)) (v.natAbs % 4096)) := by
  rw [narrow, if_neg (by omega), if_pos (normalise_of_lt_16 _ (by omega) h1)]

theorem narrow_eq_none {P : Params} {v : Int} :
    narrow P v = none ↔ v.natAbs % 4096 = 0 ∧ P.narrowZero = none := by
  by_cases h : v.natAbs % 4096 = 0
  · simp [narrow_zero h, h]
  · have := narrow_nonzero_isSome (P := P) h
    simp [h, Option.isSome_iff_ne_none.1 this]

theorem mfAdd_zero_left (P : Params) (b : Byte) : mfAdd P 0x00#8 b = some b := by
  by_cases h : b = 0x00#8 <;> simp [mfAdd, h]

theorem mfAdd_zero_right (P : Params) (a : Byte) : mfAdd P a 0x00#8 = some a := by
  by_cases h : a = 0x00#8 <;> simp [mfAdd, h]

theorem mfAdd_nonzero (P : Params) {a b : Byte} (ha : a ≠ 0x00#8) (hb : b ≠ 0x00#8) :
    mfAdd P a b = narrow P (fixedAdd P (widen a) (widen b)) := by simp [mfAdd, ha, hb]

/-- MfAdd does not end exactly where two non-zero operands sum to a zero window and NARROW_ZERO is
`hang` (rules R120, R124). -/
theorem mfAdd_eq_none {P : Params} (h : 14 ≤ P.fixedWidth) {a b : Byte} :
    mfAdd P a b = none ↔
      (a ≠ 0x00#8 ∧ b ≠ 0x00#8 ∧ (widen a + widen b).natAbs % 4096 = 0) ∧ P.narrowZero = none := by
  by_cases ha : a = 0x00#8
  · simp [ha, mfAdd_zero_left]
  by_cases hb : b = 0x00#8
  · simp [hb, mfAdd_zero_right]
  rw [mfAdd_nonzero P ha hb, fixedAdd_widen h, narrow_eq_none]
  simp [ha, hb]

end Sys2Proof.Machine
end

section
/-! SUPPORT. The launch: sequences of operations, the decode of either source, and the state that
LoadImage and Start leave (spec/00_scope.md rule R11, spec/70_reset_and_hazards.md rule R223). -/

namespace Sys2Proof.Machine

theorem performAll_cons_ok {o : Operation} {s t : State} {r : OpResult} {e : Option Event}
    (h : perform o s = .ok t r e) (os : List Operation) : performAll (o :: os) s = performAll os t := by
  rw [performAll, h]

theorem performAll_cons_error {o : Operation} {s t : State} {f : Fault}
    (h : perform o s = .error t f) (os : List Operation) : performAll (o :: os) s = .error t f := by
  rw [performAll, h]

theorem OpOutcome.EndsOk.state_unique {o : OpOutcome} {t u : State} {r : OpResult} {e : Option Event}
    (h : o.EndsOk t) (hu : o = .ok u r e) : t = u := by
  obtain ⟨r', e', ht⟩ := h
  rw [hu] at ht
  cases ht; rfl

/-- The registers and `ir` are zero, and the loader holds the valid image `g` with the entry point
`entry`: steps 1 and 2 of rule R223 are done. -/
structure State.ReadyToLoad (s : State) (g : Image) (entry : Byte) : Prop where
  regs : ∀ i, readReg s i = 0x00#8
  ir : s.ir = 0x0000#16
  imgValid : s.imgValid = true
  img : s.img = g
  ipc : s.ipc = entry

/-- A source that decodes: its operation gives the loader the image and the entry point, and leaves the
registers and `ir` as they were (rules R163, R170). -/
theorem perform_source_ok {src : ImageSource} {g : Image} {entry : Byte}
    (h : src.decoded = .ok (g, entry)) (s : State) :
    ∃ u, perform src.op s = .ok (decodeDone u g entry) (.ipc entry) none ∧ u.x = s.x ∧ u.ir = s.ir := by
  cases src with
  | pairs stream =>
    simp only [ImageSource.decoded] at h
    split at h
    · next d hd =>
      cases h
      exact ⟨scrambleLoader s, by simp only [ImageSource.op, perform, decodeOp, hd], rfl, rfl⟩
    · cases h
  | raw stream =>
    have hd : decodeRawStream params stream = .ok (g, entry) := h
    exact ⟨s, by simp only [ImageSource.op, perform, decodeRawOp, hd], rfl, rfl⟩

/-- A source that does not decode: its operation ends with the source's FormatError (rule R169). -/
theorem perform_source_error {src : ImageSource} {r : FormatReason} (h : src.decoded = .error r)
    (s : State) : ∃ u, perform src.op s = .error u (.formatError (some r)) := by
  cases src with
  | pairs stream =>
    simp only [ImageSource.decoded] at h
    split at h
    · cases h
    · next hd =>
      cases h
      exact ⟨loaderFailed s, by simp only [ImageSource.op, perform, decodeOp, hd]⟩
  | raw stream =>
    have hd : decodeRawStream params stream = .error r := h
    exact ⟨decodeFailed s, by simp only [ImageSource.op, perform, decodeRawOp, hd]⟩

theorem perform_reset (s : State) : perform .reset s = .ok (resetOp s) .none none := rfl

theorem readReg_of_zeroed {s : State} (h : s.x = Vector.replicate 16 0x00#8) (i : RegNum) :
    readReg s i = 0x00#8 := by simp [readReg, h]

/-- Steps 1 and 2, in either order, of a source that decodes. -/
theorem performAll_launch_ready {src : ImageSource} {g : Image} {entry : Byte}
    (h : src.decoded = .ok (g, entry)) {ops : List Operation}
    (hops : ops = launchOps src ∨ ops = launchOpsExchanged src) (s : State) :
    ∃ u : State, u.ReadyToLoad g entry ∧ performAll ops s = performAll [.loadImage, .start] u := by
  obtain rfl | rfl := hops
  · obtain ⟨u, hu, hx, hir⟩ := perform_source_ok h (resetOp s)
    exact ⟨decodeDone u g entry, ⟨readReg_of_zeroed hx, hir, rfl, rfl, rfl⟩,
      (performAll_cons_ok (perform_reset s) _).trans (performAll_cons_ok hu _)⟩
  · obtain ⟨u, hu, -, -⟩ := perform_source_ok h s
    exact ⟨resetOp (decodeDone u g entry), ⟨readReg_of_zeroed rfl, rfl, rfl, rfl, rfl⟩,
      (performAll_cons_ok hu _).trans (performAll_cons_ok (perform_reset _) _)⟩

/-- The launch, in either order, of a source that does not decode stops at step 2. -/
theorem performAll_launch_error {src : ImageSource} {r : FormatReason} (h : src.decoded = .error r)
    {ops : List Operation} (hops : ops = launchOps src ∨ ops = launchOpsExchanged src) (s : State) :
    ∃ t, performAll ops s = .error t (.formatError (some r)) := by
  obtain rfl | rfl := hops
  · obtain ⟨u, hu⟩ := perform_source_error h (resetOp s)
    exact ⟨u, (performAll_cons_ok (perform_reset s) _).trans (performAll_cons_error hu _)⟩
  · obtain ⟨u, hu⟩ := perform_source_error h s
    exact ⟨u, performAll_cons_error hu _⟩

/-- The state that LoadImage and Start leave (rules R179, R180). -/
def launched (s : State) : State :=
  setPc { s with mem := Image.toMemory s.img } (Image.read s.img 0x00#8)

theorem performAll_loadImage_start {s : State} (h : s.imgValid = true) :
    performAll [.loadImage, .start] s = .ok (launched s) .none none := by
  have hload : perform .loadImage s = .ok { s with mem := Image.toMemory s.img } .none none := by
    simp only [perform, loadImageOp, h, if_true]
  have hstart : perform .start { s with mem := Image.toMemory s.img } = .ok (launched s) .none none := by
    simp only [perform, startOp, launched, readMem, Image.toMemory_read]
  rw [performAll_cons_ok hload, performAll_cons_ok hstart, performAll]

theorem launched_memAt (s : State) (a : Byte) : (launched s).memAt a = Image.read (launched s).img a :=
  Image.toMemory_read s.img a

theorem launched_full (s : State) : Memory.full (launched s).mem := Image.toMemory_full s.img

/-- The launch of a source that decodes ends `Ok`, LoadImage and Start having run where steps 1 and 2 led. -/
theorem performAll_launch_ok {src : ImageSource} {g : Image} {entry : Byte}
    (h : src.decoded = .ok (g, entry)) {ops : List Operation}
    (hops : ops = launchOps src ∨ ops = launchOpsExchanged src) (s : State) :
    ∃ u : State, u.ReadyToLoad g entry ∧ performAll ops s = .ok (launched u) .none none := by
  obtain ⟨u, hu, hrun⟩ := performAll_launch_ready h hops s
  exact ⟨u, hu, hrun.trans (performAll_loadImage_start hu.imgValid)⟩

end Sys2Proof.Machine
end

section
/-! The obligations about the scope of the model: the launch, the host's accesses, the parameters'
other values (spec/00_scope.md rules R5, R11, R13 and R14). -/

namespace Sys2Proof.Machine

/-- Settles O37: whether the source decodes decides how the launch ends, and one that ends `Ok` ends in
`launched` of a state that is ready to load. -/
theorem launchState : Obligations.LaunchState := by
  intro src ops s hops
  refine ⟨fun t ht => ?_, fun g entry h => ?_, fun r h => performAll_launch_error h hops s⟩
  · cases h : src.decoded with
    | ok d =>
      obtain ⟨u, hu, hrun⟩ := performAll_launch_ok (entry := d.2) h hops s
      obtain rfl := ht.state_unique hrun
      exact ⟨hu.regs, hu.ir, rfl, launched_memAt u, launched_full u⟩
    | error r =>
      obtain ⟨_, hrun⟩ := performAll_launch_error h hops s
      obtain ⟨_, _, hok⟩ := ht
      rw [hrun] at hok
      cases hok
  · obtain ⟨u, hu, hrun⟩ := performAll_launch_ok h hops s
    exact ⟨launched u, ⟨_, _, hrun⟩, hu.img, hu.ipc⟩

/-- Settles O38, by the byte listing of MEM and the one rule of `writeMem`. -/
theorem hostAccessesBetweenOperations : Obligations.HostAccessesBetweenOperations := fun s a v =>
  ⟨⟨Memory.bytes s.mem, Memory.length_bytes s.mem, Memory.getElem?_bytes s.mem, rfl⟩, rfl,
    writeMem s a v, rfl, writeMem_writesMem s a v, rfl, rfl⟩

/-- Rule R45's `wrap`: the second byte of a fetch at 255 is `MEM[0]`. -/
theorem fetchWord_wrap {s : State} (h : s.pc = 255#8) :
    fetchWord { params with fetchAt255 := .wrap } s = .ok (s.memAt 255#8 ++ s.memAt 0#8) := by
  refine fetchWord_eq_ok.2 ⟨by simp, ?_⟩
  rw [h]; rfl

/-- Rule R170's `zero_fill`: what a dump of at most 256 bytes leaves unwritten is 0x00. -/
theorem decodeRawStream_zeroFill {stream : List Byte} (h : stream.length ≤ 256) :
    decodeRawStream { params with rawShortInput := .zeroFill } stream =
      .ok (Image.copy [] 0x00#8 stream, Image.read (Image.copy [] 0x00#8 stream) 0x00#8) := by
  rw [decodeRawStream, if_neg (by omega), if_neg (by simp)]

/-- Settles O60, one clause per parameter. -/
theorem alternativesNotTaken : Obligations.AlternativesNotTaken := by
  refine ⟨fun _ _ => rfl, fun _ => fetchWord_wrap, fun w => by simp [isHalt], fun _ _ => rfl,
    fun z v h => narrow_zero h, fun a b => ?hang, fun f v => narrow_underflow, fun n stream h => ?tooLong,
    fun stream h => ⟨_, decodeRawStream_zeroFill h, fun a => ?zeroFill⟩⟩
  case hang => rw [mfAdd_eq_none (by decide)]; simp
  case tooLong => exact if_pos h
  case zeroFill => rw [Image.read_copy _ _ _ _ h, BitVec.sub_zero, Image.read_nil]

end Sys2Proof.Machine
end

section
/-! SUPPORT. What a Cycle can do: every instruction completes, a Cycle completes wherever the `pc` is not 255,
it writes at most one cell of MEM and nothing of the loader, and it depends on the registers, `pc` and MEM
alone (spec/40_cycle.md rules R80, R87 and R201, spec/10_state.md rules R24 and R30). -/

namespace Sys2Proof.Machine

/-! ### Outcomes -/

/-- No instruction faults or is refused under the decided parameters (rule R201). -/
theorem exec_total (i : Instr) (s : State) : ∃ t, exec i s = .next t := by
  obtain ⟨_, _, h⟩ | ⟨_, _, h⟩ | ⟨_, h⟩ | ⟨_, h⟩ := exec_cases i s
  all_goals exact ⟨_, h⟩

theorem fetchWord_params {s : State} (h : s.pc ≠ 255#8) :
    fetchWord params s = .ok (wordOfBytes params (readMem s s.pc) (readMem s (s.pc + 1#8))) :=
  fetchWord_eq_ok.2 ⟨fun hpc => h hpc.1, rfl⟩

theorem step_completes {s : State} (h : s.pc ≠ 255#8) : ∃ t, step s = .next t := by
  obtain ⟨t, ht⟩ := exec_total (decode _) (fetched s _)
  exact ⟨t, step_eq_next.2 ⟨_, fetchWord_params h, ht⟩⟩

theorem step_at_top {s : State} (h : s.pc = 255#8) : step s = .fault (.fetchOutOfBounds 255#8) :=
  step_eq_fault.2 (.inl (fetchWord_eq_error.2 ⟨⟨h, rfl⟩, by rw [h]⟩))

/-- The one fault of a Cycle under the decided parameters (rules R201, R205). -/
theorem step_fault_inv {s : State} {f : Fault} (h : step s = .fault f) :
    s.pc = 255#8 ∧ f = .fetchOutOfBounds 255#8 := by
  by_cases hpc : s.pc = 255#8
  · rw [step_at_top hpc] at h
    cases h
    exact ⟨hpc, rfl⟩
  · obtain ⟨t, ht⟩ := step_completes hpc
    rw [ht] at h
    cases h

/-- `Cycle` as an operation completes with its step, or faults at the top and leaves the state. -/
theorem cycleOp_cases (s : State) :
    (∃ t, step s = .next t ∧ cycleOp s = .ok t .none t.report) ∨
    cycleOp s = .error s (.fetchOutOfBounds 255#8) := by
  by_cases h : s.pc = 255#8
  · right
    simp only [cycleOp, step_at_top h, afterCycleFault]
  · left
    obtain ⟨t, ht⟩ := step_completes h
    exact ⟨t, ht, by simp only [cycleOp, ht]⟩

/-! ### The frame -/

/-- What no instruction changes, and all it can do to MEM (rules R54, R81, R87). -/
theorem exec_frame {i : Instr} {s t : State} (h : exec i s = .next t) :
    t.ir = s.ir ∧ s.SameLoader t ∧ (t.mem = s.mem ∨ ∃ a v, t.mem = Memory.write s.mem a v) := by
  obtain ⟨d, v, e⟩ | ⟨a, v, e⟩ | ⟨pc, e⟩ | ⟨ev, e⟩ := exec_cases i s
  all_goals
    rw [e] at h
    cases h
    refine ⟨rfl, ⟨rfl, rfl, rfl, rfl, rfl⟩, ?_⟩
  · exact .inl rfl
  · exact .inr ⟨a, v, rfl⟩
  · exact .inl rfl
  · exact .inl rfl

theorem step_frame {s t : State} (h : step s = .next t) :
    s.SameLoader t ∧ (t.mem = s.mem ∨ ∃ a v, t.mem = Memory.write s.mem a v) := by
  obtain ⟨w, -, hx⟩ := step_eq_next.1 h
  exact (exec_frame hx).2

/-! ### The halt condition -/

/-- The decoder answers a HALT for the opcode 0xC alone (rules R65, R74). -/
theorem decode_eq_halt_iff (w : Word) : (∃ n, decode w = .halt n) ↔ opField w = 0xC#4 := by
  constructor
  · rintro ⟨n, h⟩
    unfold decode at h
    split at h
    case h_13 hop => exact hop
    all_goals cases h
  · intro h
    exact ⟨low12Field w, by simp only [decode, h]⟩

theorem halted_iff (s : State) : halted s = true ↔ opField s.ir = 0xC#4 := by
  simp [halted, isHalt]

/-- A Cycle that fetches a HALT only fetches (rule R151). -/
theorem step_of_halt {s : State} {w : Word} (hw : fetchWord params s = .ok w) (h : opField w = 0xC#4) :
    step s = .next (fetched s w) := by
  obtain ⟨n, hn⟩ := (decode_eq_halt_iff w).2 h
  exact step_eq_next.2 ⟨w, hw, by rw [hn, exec_halt]⟩

/-! ### Noninterference -/

/-- Two states that no Cycle tells apart and that report the same: a congruence for every shared
operation. What the loader holds, and which cells of MEM are listed, may differ. -/
structure State.Alike (s u : State) : Prop where
  x : s.x = u.x
  pc : s.pc = u.pc
  ir : s.ir = u.ir
  mem : ∀ a, readMem s a = readMem u a
  report : s.report = u.report

namespace State.Alike

variable {s u : State}

theorem readReg (h : s.Alike u) (i : RegNum) : readReg s i = readReg u i := by
  simp only [Machine.readReg, h.x]

theorem observesSame (h : s.Alike u) : s.ObservesSame u := ⟨h.readReg, h.pc, h.ir, h.mem⟩

theorem writeReg (h : s.Alike u) (i : RegNum) {v w : Byte} (hv : v = w) :
    (writeReg s i v).Alike (writeReg u i w) :=
  ⟨by simp only [writeReg_x, h.x, hv], h.pc, h.ir, h.mem, h.report⟩

theorem writeMem (h : s.Alike u) (a : Byte) {v w : Byte} (hv : v = w) :
    (writeMem s a v).Alike (writeMem u a w) :=
  ⟨h.x, h.pc, h.ir, fun b => by simp only [readMem_writeMem, h.mem, hv], h.report⟩

theorem setPc (h : s.Alike u) {t t' : Byte} (ht : t = t') : (setPc s t).Alike (setPc u t') :=
  ⟨h.x, ht, h.ir, h.mem, h.report⟩

theorem advance (h : s.Alike u) : (advance s).Alike (advance u) := h.setPc (by rw [h.pc])

theorem emit (h : s.Alike u) {e e' : Event} (he : e = e') : (emit s e).Alike (emit u e') :=
  ⟨h.x, h.pc, h.ir, h.mem, congrArg some he⟩

end State.Alike

/-- Every instruction answers alike of states that are alike. -/
theorem exec_alike (i : Instr) {s u : State} (h : s.Alike u) :
    ∃ t v, exec i s = .next t ∧ exec i u = .next v ∧ t.Alike v := by
  cases i with
  | loadMem r a => exact ⟨_, _, exec_loadMem .., exec_loadMem .., (h.writeReg r (h.mem a)).advance⟩
  | loadLiteral r b => exact ⟨_, _, exec_loadLiteral .., exec_loadLiteral .., (h.writeReg r rfl).advance⟩
  | storeMem r a => exact ⟨_, _, exec_storeMem .., exec_storeMem .., (h.writeMem a (h.readReg r)).advance⟩
  | copyReg n => exact ⟨_, _, exec_copyReg .., exec_copyReg .., h.advance⟩
  | addInt n => exact ⟨_, _, exec_addInt .., exec_addInt .., h.advance⟩
  | extension n => exact ⟨_, _, exec_extension .., exec_extension .., h.advance⟩
  | addFloat d p q =>
    obtain ⟨v, hv, hs⟩ := exec_addFloat d p q s
    obtain ⟨w, hw, hu⟩ := exec_addFloat d p q u
    rw [h.readReg p, h.readReg q, hw] at hv
    exact ⟨_, _, hs, hu, (h.writeReg d (Option.some.inj hv).symm).advance⟩
  | orReg d p q =>
    exact ⟨_, _, exec_orReg .., exec_orReg .., (h.writeReg d (by rw [h.readReg p, h.readReg q])).advance⟩
  | andReg d p q =>
    exact ⟨_, _, exec_andReg .., exec_andReg .., (h.writeReg d (by rw [h.readReg p, h.readReg q])).advance⟩
  | xorReg d p q =>
    exact ⟨_, _, exec_xorReg .., exec_xorReg .., (h.writeReg d (by rw [h.readReg p, h.readReg q])).advance⟩
  | rotate d n c =>
    exact ⟨_, _, exec_rotate .., exec_rotate .., (h.writeReg d (by rw [h.readReg d])).advance⟩
  | jumpIfEq r t =>
    refine ⟨_, _, exec_jumpIfEq .., exec_jumpIfEq .., ?_⟩
    rw [h.readReg r, h.readReg 0#4]
    split
    · exact h.setPc rfl
    · exact h.advance
  | halt n => exact ⟨_, _, exec_halt .., exec_halt .., h⟩
  | unsupported0 n =>
    exact ⟨_, _, exec_unsupported0 .., exec_unsupported0 .., (h.emit (by rw [h.pc])).advance⟩
  | unsupportedD n =>
    exact ⟨_, _, exec_unsupportedD .., exec_unsupportedD .., (h.emit (by rw [h.pc])).advance⟩
  | unsupportedF n =>
    exact ⟨_, _, exec_unsupportedF .., exec_unsupportedF .., (h.emit (by rw [h.pc])).advance⟩

/-- The fetch reads the `pc` and MEM and overwrites `ir` and the report, so nothing of those passes on. -/
theorem step_alike {s u t : State} (hx : s.x = u.x) (hpc : s.pc = u.pc)
    (hmem : ∀ a, readMem s a = readMem u a) (h : step s = .next t) : ∃ v, step u = .next v ∧ t.Alike v := by
  obtain ⟨w, hw, ht⟩ := step_eq_next.1 h
  have hw' : fetchWord params u = .ok w := by
    simpa only [fetchWord_eq_ok, ← hpc, ← hmem] using hw
  have hf : (fetched s w).Alike (fetched u w) := ⟨hx, hpc, rfl, hmem, rfl⟩
  obtain ⟨t', v, ht', hv, hal⟩ := exec_alike (decode w) hf
  rw [ht] at ht'
  cases ht'
  exact ⟨v, step_eq_next.2 ⟨w, hw', hv⟩, hal⟩

end Sys2Proof.Machine
end

section
/-! SUPPORT. The state that each operation of the host leaves, whatever its outcome, and what that state
keeps of the processor, of MEM and of the canonical form of IMG (spec/00_scope.md rule R10,
spec/10_state.md rules R20, R22, R23, R26 and R27). -/

namespace Sys2Proof.Machine

/-! ### The state an operation leaves -/

theorem loadImageOp_stateOr (s : State) :
    (loadImageOp s).stateOr s = s ∨
    (loadImageOp s).stateOr s = { s with mem := Image.toMemory s.img } := by
  unfold loadImageOp
  split
  · exact .inr rfl
  · exact .inl rfl

theorem cycleOp_stateOr (s : State) :
    (cycleOp s).stateOr s = s ∨ step s = .next ((cycleOp s).stateOr s) := by
  obtain ⟨t, ht, h⟩ | h := cycleOp_cases s
  · rw [h]; exact .inr ht
  · rw [h]; exact .inl rfl

theorem decodeOp_stateOr (stream : List Byte) (s : State) :
    (decodeOp stream s).stateOr s = loaderFailed s ∨
    ∃ d, decodeStream params stream = .ok d ∧
      (decodeOp stream s).stateOr s = decodeDone (scrambleLoader s) d.img d.ipc := by
  unfold decodeOp
  split
  · next d hd => exact .inr ⟨d, hd, rfl⟩
  · exact .inl rfl

theorem decodeRawOp_stateOr (stream : List Byte) (s : State) :
    (decodeRawOp stream s).stateOr s = decodeFailed s ∨
    ∃ g entry, decodeRawStream params stream = .ok (g, entry) ∧
      (decodeRawOp stream s).stateOr s = decodeDone s g entry := by
  unfold decodeRawOp
  split
  · next g entry hd => exact .inr ⟨g, entry, hd, rfl⟩
  · exact .inl rfl

theorem encodeOp_stateOr (s : State) : (encodeOp s).stateOr s = s := by
  unfold encodeOp; split <;> rfl

theorem loaderEndOp_stateOr (s : State) :
    (loaderEndOp s).stateOr s = loaderFailed s ∨ (loaderEndOp s).stateOr s = loaderEnd s := by
  unfold loaderEndOp
  split
  case h_4 => exact .inr rfl
  all_goals exact .inl rfl

/-! ### The processor -/

/-- The registers, `pc`, `ir` and MEM are untouched. -/
structure State.SameProcessor (s t : State) : Prop where
  x : t.x = s.x
  pc : t.pc = s.pc
  ir : t.ir = s.ir
  mem : t.mem = s.mem

theorem loaderFailed_sameProcessor (s : State) : s.SameProcessor (loaderFailed s) :=
  ⟨loaderFailed_x s, loaderFailed_pc s, loaderFailed_ir s, loaderFailed_mem s⟩

theorem decodeFailed_sameProcessor (s : State) : s.SameProcessor (decodeFailed s) :=
  ⟨decodeFailed_x s, decodeFailed_pc s, decodeFailed_ir s, decodeFailed_mem s⟩

theorem loaderByte_sameProcessor (P : Params) (s : State) (b : Byte) :
    s.SameProcessor (loaderByte P s b) := by
  obtain ⟨hx, hpc, hir, hmem, -⟩ := loaderByte_frame P s b
  exact ⟨hx, hpc, hir, hmem⟩

theorem State.SameProcessor.refl (s : State) : s.SameProcessor s := ⟨rfl, rfl, rfl, rfl⟩

/-- Everything an operation can do to the processor: a Cycle that completes, the four other operations that
write it, and what leaves it untouched (rule R10). -/
inductive ProcessorEffect (s : State) : Operation → State → Prop where
  | cycle {t : State} (h : step s = .next t) : ProcessorEffect s .cycle t
  | reset : ProcessorEffect s .reset (resetOp s)
  | start : ProcessorEffect s .start (setPc s (readMem s 0x00#8))
  | loadImage : ProcessorEffect s .loadImage { s with mem := Image.toMemory s.img }
  | hostWrite (a v : Byte) : ProcessorEffect s (.hostWrite a v) (writeMem s a v)
  | untouched {o : Operation} {t : State} (h : s.SameProcessor t) : ProcessorEffect s o t

theorem perform_effect (o : Operation) (s : State) : ProcessorEffect s o ((perform o s).stateOr s) := by
  cases o with
  | reset => exact .reset
  | start => exact .start
  | hostWrite a v => exact .hostWrite a v
  | loadImage =>
    simp only [perform]
    obtain h | h := loadImageOp_stateOr s
    · rw [h]; exact .untouched (.refl s)
    · rw [h]; exact .loadImage
  | cycle =>
    simp only [perform]
    obtain h | h := cycleOp_stateOr s
    · rw [h]; exact .untouched (.refl s)
    · exact .cycle h
  | decode stream =>
    simp only [perform]
    obtain h | ⟨d, -, h⟩ := decodeOp_stateOr stream s
    · rw [h]; exact .untouched (loaderFailed_sameProcessor s)
    · rw [h]; exact .untouched ⟨rfl, rfl, rfl, rfl⟩
  | decodeRaw stream =>
    simp only [perform]
    obtain h | ⟨g, entry, -, h⟩ := decodeRawOp_stateOr stream s
    · rw [h]; exact .untouched (decodeFailed_sameProcessor s)
    · rw [h]; exact .untouched ⟨rfl, rfl, rfl, rfl⟩
  | encode =>
    simp only [perform, encodeOp_stateOr]
    exact .untouched (.refl s)
  | loaderEnd =>
    simp only [perform]
    obtain h | h := loaderEndOp_stateOr s
    · rw [h]; exact .untouched (loaderFailed_sameProcessor s)
    · rw [h]; exact .untouched ⟨rfl, rfl, rfl, rfl⟩
  | loaderBegin => exact .untouched ⟨rfl, rfl, rfl, rfl⟩
  | loaderByte b => exact .untouched (loaderByte_sameProcessor params s b)
  | observe => exact .untouched (.refl s)
  | hostRead a => exact .untouched (.refl s)

/-! ### MEM -/

/-- Everything an operation can do to MEM (rule R26). -/
theorem perform_mem (o : Operation) (s : State) :
    ((perform o s).stateOr s).mem = s.mem ∨
    (∃ a v, ((perform o s).stateOr s).mem = Memory.write s.mem a v) ∨
    ((perform o s).stateOr s).mem = Image.toMemory s.img := by
  have h := perform_effect o s
  generalize (perform o s).stateOr s = t at h ⊢
  cases h with
  | cycle h => exact (step_frame h).2.imp_right .inl
  | reset => exact .inl rfl
  | start => exact .inl rfl
  | loadImage => exact .inr (.inr rfl)
  | hostWrite a v => exact .inr (.inl ⟨a, v, rfl⟩)
  | untouched h => exact .inl h.mem

theorem Memory.written_write_of_written {m : Memory} {b : Byte} (a v : Byte)
    (h : Memory.written m b = true) : Memory.written (Memory.write m a v) b = true := by
  rw [Memory.written_write, h, Bool.or_true]

theorem step_keeps_written {s t : State} (h : step s = .next t) {a : Byte}
    (ha : Memory.written s.mem a = true) : Memory.written t.mem a = true := by
  obtain e | ⟨b, v, e⟩ := (step_frame h).2
  · rw [e]; exact ha
  · rw [e]; exact Memory.written_write_of_written b v ha

theorem perform_keeps_written (o : Operation) (s : State) {a : Byte}
    (ha : Memory.written s.mem a = true) : Memory.written ((perform o s).stateOr s).mem a = true := by
  obtain e | ⟨b, v, e⟩ | e := perform_mem o s
  · rw [e]; exact ha
  · rw [e]; exact Memory.written_write_of_written b v ha
  · rw [e]; exact Image.toMemory_full s.img a

theorem mem_of_cellsRead {m : List Host.Cell} {a : Nat} {v : Byte} (h : cellsRead m a = some v) :
    (a, v) ∈ m := by
  induction m with
  | nil => cases h
  | cons c m ih =>
    obtain ⟨b, w⟩ := c
    simp only [cellsRead] at h
    split at h
    · next hab =>
      cases h
      rw [hab]
      exact List.mem_cons_self
    · exact List.mem_cons_of_mem _ (ih h)

/-- A read of a written cell answers a byte that MEM lists, so no free value (rule R32). -/
theorem Memory.read_mem_of_written {m : Memory} {a : Byte} (h : Memory.written m a = true) :
    (a.toNat, Memory.read m a) ∈ m := by
  obtain ⟨v, hv⟩ := Option.isSome_iff_exists.1 h
  rw [Memory.read, hv, Option.getD_some]
  exact mem_of_cellsRead hv

theorem perform_keeps_mem_wf (o : Operation) {s : State} (h : Memory.wf s.mem = true) :
    Memory.wf ((perform o s).stateOr s).mem = true := by
  obtain e | ⟨b, v, e⟩ | e := perform_mem o s
  · rw [e]; exact h
  · rw [e]; exact Memory.wf_write b v h
  · rw [e]; exact Image.toMemory_wf s.img

/-! ### IMG -/

/-- The loop of rule R163 keeps the canonical form of the image it builds. -/
theorem decodePairs_img_wf {fuel : Nat} {stream : List Byte} {d d' : Decoded}
    (hd : Image.wf d.img = true) (h : decodePairs fuel stream d = .ok d') : Image.wf d'.img = true := by
  induction fuel, stream, d using decodePairs.induct with
  | case1 fuel d => rw [decodePairs_nil] at h; cases h; exact hd
  | case2 b bs d => cases h
  | case3 fuel b d => cases h
  | case4 fuel a v rest d he ih =>
    rw [decodePairs_entry he] at h
    exact ih (Image.wf_write 0x00#8 v hd) h
  | case5 fuel a v rest d _ hb hv => rw [decodePairs_block hb, if_pos hv] at h; cases h
  | case6 fuel a v rest d _ hb hv hl =>
    rw [decodePairs_block hb, if_neg hv, if_pos hl] at h; cases h
  | case7 fuel a v rest d _ hb hv hl ih =>
    rw [decodePairs_block hb, if_neg hv, if_neg hl] at h
    exact ih (Image.wf_copy a _ hd) h
  | case8 fuel a v rest d he hb ih =>
    rw [decodePairs_plain he hb] at h
    exact ih (Image.wf_write a v hd) h

theorem decodeStream_img_wf {P : Params} {stream : List Byte} {d : Decoded}
    (h : decodeStream P stream = .ok d) : Image.wf d.img = true := by
  unfold decodeStream at h
  split at h
  · cases h
  · exact decodePairs_img_wf rfl h

theorem decodeRawStream_img_wf {P : Params} {stream : List Byte} {g : Image} {entry : Byte}
    (h : decodeRawStream P stream = .ok (g, entry)) : Image.wf g = true := by
  unfold decodeRawStream at h
  split at h
  · cases h
  · split at h
    · cases h
    · cases h
      exact Image.wf_copy 0x00#8 stream rfl

/-- Everything a value byte can do to IMG (rule R175). -/
theorem loaderValue_img (s : State) (v : Byte) :
    (loaderValue s v).img = s.img ∨ ∃ a, (loaderValue s v).img = Image.write s.img a v := by
  by_cases he : s.ldr.aLat = 0x00#8 ∧ s.ldr.pcSet = false
  · rw [loaderValue_entry he]; exact .inr ⟨_, rfl⟩
  · by_cases hb : s.ldr.pcSet = true ∧ s.ldr.aLat = s.ipc
    · left
      by_cases hv : 256 < s.ldr.aLat.toNat + v.toNat
      · rw [loaderValue_pastMemory hb hv]; rfl
      · by_cases h0 : v = 0x00#8
        · rw [h0, loaderValue_emptyBlock hb]
        · rw [loaderValue_block hb hv h0]
    · rw [loaderValue_plain he hb]; exact .inr ⟨_, rfl⟩

/-- Everything a byte can do to IMG (rules R174 to R176). -/
theorem loaderByte_img (P : Params) (s : State) (b : Byte) :
    (loaderByte P s b).img = s.img ∨ ∃ a, (loaderByte P s b).img = Image.write s.img a b := by
  by_cases hc : s.ldr.cnt = P.imgMaxStreamBytes
  · left
    by_cases he : s.ldr.ph = .err
    · rw [loaderByte_err he]
    · rw [loaderByte_full he hc]; rfl
  · cases hp : s.ldr.ph with
    | err => rw [loaderByte_err hp]; exact .inl rfl
    | addr => rw [loaderByte_addr hp hc]; exact .inl rfl
    | val => rw [loaderByte_val hp hc]; exact loaderValue_img (loaderCount s) b
    | blk => rw [loaderByte_blk hp hc]; exact .inr ⟨s.ldr.dst, rfl⟩

theorem loaderByte_img_wf (P : Params) {s : State} (b : Byte) (h : Image.wf s.img = true) :
    Image.wf (loaderByte P s b).img = true := by
  obtain e | ⟨a, e⟩ := loaderByte_img P s b
  · rw [e]; exact h
  · rw [e]; exact Image.wf_write a b h

theorem step_img {s t : State} (h : step s = .next t) : t.img = s.img := by
  obtain ⟨⟨himg, -⟩, -⟩ := step_frame h
  exact himg.symm

theorem perform_keeps_img_wf (o : Operation) {s : State} (h : Image.wf s.img = true) :
    Image.wf ((perform o s).stateOr s).img = true := by
  cases o with
  | loadImage =>
    simp only [perform]
    obtain e | e := loadImageOp_stateOr s
    · rw [e]; exact h
    · rw [e]; exact h
  | cycle =>
    simp only [perform]
    obtain e | e := cycleOp_stateOr s
    · rw [e]; exact h
    · rw [step_img e]; exact h
  | decode stream =>
    simp only [perform]
    obtain e | ⟨d, hd, e⟩ := decodeOp_stateOr stream s
    · rw [e, loaderFailed_img]; exact freeImage_wf _
    · rw [e]; exact decodeStream_img_wf hd
  | decodeRaw stream =>
    simp only [perform]
    obtain e | ⟨g, entry, hd, e⟩ := decodeRawOp_stateOr stream s
    · rw [e, decodeFailed_img]; exact freeImage_wf _
    · rw [e]; exact decodeRawStream_img_wf hd
  | encode => simpa only [perform, encodeOp_stateOr] using h
  | loaderEnd =>
    simp only [perform]
    obtain e | e := loaderEndOp_stateOr s
    · rw [e, loaderFailed_img]; exact freeImage_wf _
    · rw [e]; exact h
  | loaderBegin => rfl
  | loaderByte b => exact loaderByte_img_wf params b h
  | _ => exact h

end Sys2Proof.Machine
end

section
/-! The obligations about the state: what every step and every operation keeps, what a Cycle depends on,
and the state after reset (spec/10_state.md). -/

namespace Sys2Proof.Machine

/-- Settles O29: a step is the operation `Cycle` where it completes, so both clauses are what an operation
keeps of MEM and of IMG. -/
theorem canonicalFormsAreKept : Obligations.CanonicalFormsAreKept := by
  have hop : ∀ (o : Operation) (s : State), s.Wf → ((perform o s).stateOr s).Wf :=
    fun o s ⟨hmem, himg⟩ => ⟨perform_keeps_mem_wf o hmem, perform_keeps_img_wf o himg⟩
  refine ⟨fun s t hs h => ?_, hop⟩
  have ht : (perform .cycle s).stateOr s = t := by
    simp only [perform, cycleOp, h, OpOutcome.stateOr]
  exact ht ▸ hop .cycle s hs

/-- Settles O24: a Cycle keeps the `ir` that its fetch wrote, and a HALT does nothing after the fetch, so
that a further fetch finds the same word. -/
theorem haltedDependsOnTheFetchedOpcode : Obligations.HaltedDependsOnTheFetchedOpcode := by
  intro s t h
  obtain ⟨w, hw, hx⟩ := step_eq_next.1 h
  have hir : t.ir = w := (exec_frame hx).1
  refine ⟨(halted_iff t).trans (decode_eq_halt_iff t.ir).symm, fun hjump => ?jump, fun hhalt => ?halt⟩
  case jump => simp [halted, isHalt, hjump]
  case halt =>
    have hop : opField w = 0xC#4 := hir ▸ (halted_iff t).1 hhalt
    have ht : t = fetched s w := by
      rw [step_of_halt hw hop] at h
      cases h; rfl
    subst ht
    exact ⟨rfl, step_of_halt (s := fetched s w) hw hop⟩

/-- Settles O27, by what an operation can do to MEM. -/
theorem writtenCellsStayWritten : Obligations.WrittenCellsStayWritten := by
  refine ⟨fun s t h => ?load, fun o s a => perform_keeps_written o s, fun s a => Memory.read_mem_of_written,
    fun s ⟨hfull, hpc⟩ => ?safe⟩
  case load =>
    obtain ⟨r, e, h⟩ := h
    simp only [perform, loadImageOp] at h
    split at h
    · cases h
      exact Image.toMemory_full s.img
    · cases h
  case safe =>
    obtain ⟨t, ht⟩ := step_completes hpc
    exact ⟨t, ht, fun a => step_keeps_written ht (hfull a)⟩

/-- Settles O28: the fetch makes the two states alike, and every instruction is a congruence. -/
theorem cycleDependsOnTheProcessorAlone : Obligations.CycleDependsOnTheProcessorAlone := by
  intro s u hreg hpc hmem
  refine ⟨fun t ht => ?_, fun f hf => ?_⟩
  · obtain ⟨v, hv, hal⟩ := step_alike (regs_ext hreg) hpc hmem ht
    exact ⟨v, hv, hal.observesSame, hal.report⟩
  · obtain ⟨htop, rfl⟩ := step_fault_inv hf
    exact step_at_top (hpc ▸ htop)

/-- Settles O36, by the effect of the operation on the processor. -/
theorem onlyTheseOperationsWriteTheProcessor : Obligations.OnlyTheseOperationsWriteTheProcessor := by
  intro o s
  have h := perform_effect o s
  generalize (perform o s).stateOr s = t at h ⊢
  cases h with
  | cycle _ => exact ⟨fun h => absurd rfl h, fun h => absurd rfl h, fun h => absurd rfl h⟩
  | reset => exact ⟨fun _ h => absurd rfl h, fun _ h => absurd rfl h, fun _ _ _ => rfl⟩
  | start => exact ⟨fun _ _ => ⟨rfl, rfl⟩, fun _ _ h => absurd rfl h, fun _ _ _ => rfl⟩
  | loadImage => exact ⟨fun _ _ => ⟨rfl, rfl⟩, fun _ _ _ => rfl, fun _ h => absurd rfl h⟩
  | hostWrite a v => exact ⟨fun _ _ => ⟨rfl, rfl⟩, fun _ _ _ => rfl, fun _ _ h => absurd rfl (h a v)⟩
  | untouched h => exact ⟨fun _ _ => ⟨h.x, h.ir⟩, fun _ _ _ => h.pc, fun _ _ _ => h.mem⟩

/-- Settles O30: MEM and IMG list no cell, and the loader is in the phase ADDR without a sub-reason. -/
theorem resetIsCanonical : Obligations.ResetIsCanonical := by
  refine ⟨⟨rfl, rfl⟩, fun h => ?block, ?errorPhase, Nat.zero_le _⟩
  case block => cases h
  case errorPhase => simp [State.reset]

/-- Settles O32, field by field. -/
theorem stateAfterReset : Obligations.StateAfterReset :=
  ⟨readReg_of_zeroed rfl, rfl, rfl, rfl, rfl, Memory.written_nil⟩

end Sys2Proof.Machine
end

section
/-! The obligation about self-modifying code: what a store leaves for the very next fetch
(spec/20_memory.md). -/

namespace Sys2Proof.Machine

/-- A Cycle below the top runs the instruction of the bytes at `pc` and `pc + 1` (rules R42, R80, R81). -/
theorem step_of_bytes {s : State} {b₀ b₁ : Byte} (hpc : s.pc ≠ 255#8) (h₀ : readMem s s.pc = b₀)
    (h₁ : readMem s (s.pc + 1#8) = b₁) : step s = exec (decode (b₀ ++ b₁)) (fetched s (b₀ ++ b₁)) := by
  subst h₀ h₁
  have hfetch : fetch s = .ok (fetched s (readMem s s.pc ++ readMem s (s.pc + 1#8))) :=
    fetch_eq_ok.2 ⟨_, fetchWord_params hpc, rfl⟩
  rw [step, hfetch]
  rfl

/-- Settles O25: the store leaves `pc + 2` as the `pc`, below the top, and of the two bytes there it has
replaced the one at its own address. -/
theorem storeIsSeenByTheNextFetch : Obligations.StoreIsSeenByTheNextFetch := by
  intro s t r a h hpc
  rw [exec_storeMem] at h
  cases h
  have hnext : s.pc + 2#8 ≠ 255#8 := by bv_omega
  have hsecond : s.pc + 2#8 + 1#8 = s.pc + 3#8 := BitVec.add_assoc ..
  have hne : s.pc + 2#8 ≠ s.pc + 3#8 := by bv_omega
  have hread (b : Byte) : readMem (advance (writeMem s a (readReg s r))) b =
      if b = a then readReg s r else readMem s b := readMem_writeMem ..
  refine ⟨rfl, fun ha => step_of_bytes hnext ?first ?afterFirst,
    fun ha => step_of_bytes hnext ?beforeSecond ?second⟩
  all_goals rw [hread, advance_pc, writeMem_pc, ha]
  case first => exact if_pos rfl
  case afterFirst => rw [hsecond]; exact if_neg hne.symm
  case beforeSecond => exact if_neg hne
  case second => exact if_pos hsecond

end Sys2Proof.Machine
end

section
/-! SUPPORT. A word is its fields, `encode` and `decode` are inverse to each other, so a statement about
every word is one about every instruction, and the fields and the class of an instruction's word
(spec/30_encoding.md rules R61 to R67, R72). -/

namespace Sys2Proof

/-! ### The fields of a word put together from fields -/

@[simp] theorem p1Field_append_4_8 (op p : BitVec 4) (b : Byte) : p1Field (op ++ p ++ b) = p :=
  (BitVec.extractLsb'_append_eq_of_le (by decide)).trans BitVec.extractLsb'_append_eq_right

@[simp] theorem loField_append_4_8 (op p : BitVec 4) (b : Byte) : loField (op ++ p ++ b) = b :=
  BitVec.extractLsb'_append_eq_right

@[simp] theorem p1Field_append_4_4_4 (op p q r : BitVec 4) : p1Field (op ++ p ++ q ++ r) = p :=
  (BitVec.extractLsb'_append_eq_of_le (by decide)).trans <|
    (BitVec.extractLsb'_append_eq_of_le (by decide)).trans BitVec.extractLsb'_append_eq_right

@[simp] theorem p2Field_append_4_4_4 (op p q r : BitVec 4) : p2Field (op ++ p ++ q ++ r) = q :=
  (BitVec.extractLsb'_append_eq_of_le (by decide)).trans BitVec.extractLsb'_append_eq_right

@[simp] theorem p3Field_append_4_4_4 (op p q r : BitVec 4) : p3Field (op ++ p ++ q ++ r) = r :=
  BitVec.extractLsb'_append_eq_right

/-! ### A word put together again from its own fields -/

theorem p2Field_append_p3Field (w : Word) : p2Field w ++ p3Field w = loField w :=
  BitVec.extractLsb'_append_extractLsb'_eq_extractLsb' rfl

theorem opField_append_low12Field (w : Word) : opField w ++ low12Field w = w :=
  (BitVec.extractLsb'_append_extractLsb'_eq_extractLsb' rfl).trans BitVec.extractLsb'_eq_self

theorem opField_append_p1Field (w : Word) : opField w ++ p1Field w = w.extractLsb' 8 8 :=
  BitVec.extractLsb'_append_extractLsb'_eq_extractLsb' rfl

theorem opField_append_p1Field_loField (w : Word) : opField w ++ p1Field w ++ loField w = w := by
  rw [opField_append_p1Field]
  exact (BitVec.extractLsb'_append_extractLsb'_eq_extractLsb' rfl).trans BitVec.extractLsb'_eq_self

theorem opField_append_p1Field_p2Field_p3Field (w : Word) :
    opField w ++ p1Field w ++ p2Field w ++ p3Field w = w := by
  have hhigh : opField w ++ p1Field w ++ p2Field w = w.extractLsb' 4 12 := by
    rw [opField_append_p1Field]
    exact BitVec.extractLsb'_append_extractLsb'_eq_extractLsb' rfl
  rw [hhigh]
  exact (BitVec.extractLsb'_append_extractLsb'_eq_extractLsb' rfl).trans BitVec.extractLsb'_eq_self

/-! ### The number a word is -/

theorem toNat_append_eq_add {m n : Nat} (a : BitVec m) (b : BitVec n) :
    (a ++ b).toNat = a.toNat * 2 ^ n + b.toNat := by
  rw [BitVec.toNat_append, ← Nat.shiftLeft_add_eq_or_of_lt b.isLt, Nat.shiftLeft_eq]

/-- The value of a word by its two upper nibbles and its low byte (rule R62). -/
theorem toNat_eq_op_p1_lo (w : Word) :
    w.toNat = (opField w).toNat * 4096 + (p1Field w).toNat * 256 + (loField w).toNat := by
  calc w.toNat
    _ = (opField w ++ p1Field w ++ loField w).toNat := by rw [opField_append_p1Field_loField]
    _ = ((opField w).toNat * 2 ^ 4 + (p1Field w).toNat) * 2 ^ 8 + (loField w).toNat := by
      rw [toNat_append_eq_add, toNat_append_eq_add]
    _ = (opField w).toNat * 4096 + (p1Field w).toNat * 256 + (loField w).toNat := by
      rw [Nat.add_mul, Nat.mul_assoc]
      rfl

/-! ### Decode and encode -/

/-- The last case of `decode` is the one opcode that the fifteen before it leave (rule R65). -/
theorem opcode_eq_F_of_not_mem : ∀ op : BitVec 4,
    op ∉ [0x0#4, 0x1#4, 0x2#4, 0x3#4, 0x4#4, 0x5#4, 0x6#4, 0x7#4, 0x8#4, 0x9#4, 0xA#4, 0xB#4, 0xC#4,
      0xD#4, 0xE#4] → op = 0xF#4 := by
  decide

/-- Every format keeps every bit of the word: the opcode of the row stands where `op` stood. -/
theorem encode_decode (w : Word) : encode (decode w) = w := by
  unfold decode
  split
  case h_1 h | h_5 h | h_6 h | h_13 h | h_14 h | h_15 h =>
    rw [encode, ← h]
    exact opField_append_low12Field w
  case h_2 h | h_3 h | h_4 h | h_12 h =>
    rw [encode, ← h]
    exact opField_append_p1Field_loField w
  case h_7 h | h_8 h | h_9 h | h_10 h | h_11 h =>
    rw [encode, ← h]
    exact opField_append_p1Field_p2Field_p3Field w
  case h_16 h0 h1 h2 h3 h4 h5 h6 h7 h8 h9 hA hB hC hD hE =>
    have h : opField w = 0xF#4 := opcode_eq_F_of_not_mem _ (by
      simp only [List.mem_cons, List.not_mem_nil, or_false, not_or]
      exact ⟨h0, h1, h2, h3, h4, h5, h6, h7, h8, h9, hA, hB, hC, hD, hE⟩)
    rw [encode, ← h]
    exact opField_append_low12Field w

/-- Each format's fields stand where the decoder reads them, under the opcode of the row. -/
theorem decode_encode (i : Instr) : decode (encode i) = i := by
  cases i with
  | unsupported0 n | copyReg n | addInt n | halt n | unsupportedD n | extension n =>
    simp only [encode, decode, opField_append12, low12Field_append12]
  | unsupportedF n =>
    rw [encode, decode, opField_append12, low12Field_append12]
    rfl
  | loadMem r b | loadLiteral r b | storeMem r b | jumpIfEq r b =>
    simp only [encode, decode, opField_append_4_8, p1Field_append_4_8, loField_append_4_8]
  | addFloat d p q | orReg d p q | andReg d p q | xorReg d p q | rotate d p q =>
    simp only [encode, decode, opField_append_4_4_4, p1Field_append_4_4_4, p2Field_append_4_4_4,
      p3Field_append_4_4_4]

/-- No word is outside the instruction set (rule R72). -/
theorem exists_encode_eq (w : Word) : ∃ i, encode i = w := ⟨decode w, encode_decode w⟩

theorem decodeBytes_encodeBytes_append (P : Params) (i : Instr) (rest : List Byte) :
    decodeBytes P (encodeBytes P i ++ rest) = .ok (i, rest) := by
  simp only [encodeBytes, List.cons_append, List.nil_append, decodeBytes,
    Machine.wordOfBytes_bytesOfWord, decode_encode]

/-! ### The opcode and the class of an instruction -/

@[simp] theorem opField_encode (i : Instr) : opField (encode i) = i.opcode := by
  cases i with
  | unsupported0 n => exact Laws.OpcodeField.unsupported0 n
  | loadMem r a => exact Laws.OpcodeField.loadMem r a
  | loadLiteral r v => exact Laws.OpcodeField.loadLiteral r v
  | storeMem r a => exact Laws.OpcodeField.storeMem r a
  | copyReg n => exact Laws.OpcodeField.copyReg n
  | addInt n => exact Laws.OpcodeField.addInt n
  | addFloat d p q => exact Laws.OpcodeField.addFloat d p q
  | orReg d p q => exact Laws.OpcodeField.orReg d p q
  | andReg d p q => exact Laws.OpcodeField.andReg d p q
  | xorReg d p q => exact Laws.OpcodeField.xorReg d p q
  | rotate d n c => exact Laws.OpcodeField.rotate d n c
  | jumpIfEq r t => exact Laws.OpcodeField.jumpIfEq r t
  | halt n => exact Laws.OpcodeField.halt n
  | unsupportedD n => exact Laws.OpcodeField.unsupportedD n
  | extension n => exact Laws.OpcodeField.extension n
  | unsupportedF n => exact Laws.OpcodeField.unsupportedF n

theorem opClass_eq_unsupported_iff (i : Instr) :
    i.opClass = .unsupported ↔ i.opcode = 0x0#4 ∨ i.opcode = 0xD#4 ∨ i.opcode = 0xF#4 := by
  cases i <;> simp [Instr.opClass, Instr.opcode]

theorem opClass_eq_reserved_iff (i : Instr) :
    i.opClass = .reserved ↔ i.opcode = 0x4#4 ∨ i.opcode = 0x5#4 ∨ i.opcode = 0xE#4 := by
  cases i <;> simp [Instr.opClass, Instr.opcode]

/-- Rule R70, on instructions: an assembler line has a mnemonic and leaves what its format ignores zero. -/
theorem canonical_iff (i : Instr) :
    i.canonical = true ↔
      (i.opcode ≠ 0x0#4 ∧ i.opcode ≠ 0xD#4 ∧ i.opcode ≠ 0xF#4) ∧
      (i.opcode = 0x4#4 ∨ i.opcode = 0x5#4 ∨ i.opcode = 0xC#4 ∨ i.opcode = 0xE#4 →
        low12Field (encode i) = 0#12) ∧
      (i.opcode = 0xA#4 → p2Field (encode i) = 0#4) := by
  cases i with
  | unsupported0 n | unsupportedD n | unsupportedF n => simp [Instr.canonical, Instr.opcode]
  | copyReg n | addInt n | halt n | extension n =>
    simp [Instr.canonical, Instr.opcode, encode, low12Field_append12]
  | rotate d n c => simp [Instr.canonical, Instr.opcode, encode]
  | _ => simp [Instr.canonical, Instr.opcode]

end Sys2Proof
end

section
/-! SUPPORT. What an instruction without a register or memory effect leaves as it was
(spec/42_reserved_and_unsupported.md). -/

namespace Sys2Proof.Machine

theorem isHalt_params_iff (w : Word) : isHalt params w = true ↔ opField w = 0xC#4 := by simp [isHalt]

namespace State.KeepsAll

theorem refl (s : State) : s.KeepsAll s := ⟨fun _ => rfl, rfl, fun _ => rfl, rfl, rfl, rfl, rfl, rfl⟩

theorem advance {s t : State} (h : s.KeepsAll t) : s.KeepsAll (advance t) := h

theorem emit {s t : State} (h : s.KeepsAll t) (e : Event) : s.KeepsAll (emit t e) := h

end State.KeepsAll

/-- An instruction whose whole effect is to advance is a no-op without an event (rule R66). -/
theorem completesKeepingAll_of_advance {i : Instr} {s : State} (h : exec i s = .next (advance s)) :
    CompletesKeepingAll i s (s.pc + 2#8) s.report :=
  ⟨_, h, (State.KeepsAll.refl s).advance, rfl, rfl⟩

/-- An instruction whose whole effect is to report and advance is a no-op but for the event (rule R67). -/
theorem completesKeepingAll_of_emit {i : Instr} {s : State} {e : Event}
    (h : exec i s = .next (advance (emit s e))) : CompletesKeepingAll i s (s.pc + 2#8) (some e) :=
  ⟨_, h, ((State.KeepsAll.refl s).emit e).advance, rfl, rfl⟩

/-- The rotate count is the field `p3` modulo 8, and `p2` is not looked at (rules R64, R68). -/
theorem exec_rotate_congr (d p p' : BitVec 4) {c c' : BitVec 4} (s : State)
    (h : c.toNat % 8 = c'.toNat % 8) : exec (.rotate d p c) s = exec (.rotate d p' c') s := by
  have hcount : rotateCount c = rotateCount c' := h
  rw [exec_rotate, exec_rotate, hcount]

end Sys2Proof.Machine
end

section
/-! The obligations about the encoding and about what an instruction word does that its fields do not say
(spec/30_encoding.md). -/

namespace Sys2Proof.Machine

/-- Settles O2: each format's fields stand where the decoder reads them, and every bit belongs to one. -/
theorem decodeInvertsEncode : Obligations.DecodeInvertsEncode :=
  ⟨decode_encode, encode_decode, decodeBytes_encodeBytes_append⟩

/-- Settles O1: the low byte is its two nibbles, so the value by the low byte is that by the nibbles. -/
theorem wordIsItsFourNibbles : Obligations.WordIsItsFourNibbles := by
  intro w
  have hlo : (loField w).toNat = (p2Field w).toNat * 16 + (p3Field w).toNat := by
    rw [← p2Field_append_p3Field]
    exact toNat_append_eq_add _ _
  refine ⟨?_, (p2Field_append_p3Field w).symm, toNat_eq_op_p1_lo w⟩
  rw [toNat_eq_op_p1_lo, hlo, Nat.add_assoc _ _ (p3Field w).toNat]

/-- Settles O3: every word is the word of an instruction, whose opcode fixes its class. -/
theorem opcodeAloneSelectsTheCase : Obligations.OpcodeAloneSelectsTheCase := by
  intro w
  obtain ⟨i, rfl⟩ := exists_encode_eq w
  rw [decode_encode, opField_encode]
  exact ⟨rfl, opClass_eq_unsupported_iff i, opClass_eq_reserved_iff i⟩

/-- Settles O4: fixed words are evaluated, and the words of ROTATE are those `encode` gives. -/
theorem specWordsDecode : Obligations.SpecWordsDecode :=
  ⟨by decide, by decide, fun p1 p2 => decode_encode (.rotate p1 p2 1#4), by decide, by decide, by decide,
    by decide, by decide⟩

/-- Settles O5: every word is the word of an instruction, and of those rule R70 speaks. -/
theorem assemblerFormsAreTheCanonicalWords : Obligations.AssemblerFormsAreTheCanonicalWords := by
  intro w
  obtain ⟨i, rfl⟩ := exists_encode_eq w
  rw [decode_encode, opField_encode]
  exact canonical_iff i

/-- Settles O6: no equation of `exec` for these instructions mentions the ignored field. -/
theorem ignoredFieldsHaveNoEffect : Obligations.IgnoredFieldsHaveNoEffect := by
  refine ⟨fun m n s => ?low12, fun d p p' c c' s h => ⟨exec_total _ s, exec_rotate_congr d p p' s h⟩,
    fun n => (isHalt_params_iff _).2 (opField_append12 _ n)⟩
  case low12 =>
    exact ⟨exec_total _ s, (exec_halt m s).trans (exec_halt n s).symm,
      exec_total _ s, (exec_copyReg m s).trans (exec_copyReg n s).symm,
      exec_total _ s, (exec_addInt m s).trans (exec_addInt n s).symm,
      exec_total _ s, (exec_extension m s).trans (exec_extension n s).symm,
      exec_total _ s, (exec_unsupported0 m s).trans (exec_unsupported0 n s).symm,
      exec_total _ s, (exec_unsupportedD m s).trans (exec_unsupportedD n s).symm,
      exec_total _ s, (exec_unsupportedF m s).trans (exec_unsupportedF n s).symm⟩

/-- Settles O10: the whole effect of the three is to advance the `pc`. -/
theorem reservedOpcodesDoNothing : Obligations.ReservedOpcodesDoNothing := fun n =>
  ⟨toNat_append_eq_add 0x4#4 n, toNat_append_eq_add 0x5#4 n, toNat_append_eq_add 0xE#4 n, fun s =>
    ⟨completesKeepingAll_of_advance (exec_copyReg n s), completesKeepingAll_of_advance (exec_addInt n s),
      completesKeepingAll_of_advance (exec_extension n s)⟩⟩

/-- Settles O11: the whole effect of the three is to report the event and advance the `pc`. -/
theorem unsupportedOpcodesReportAndContinue : Obligations.UnsupportedOpcodesReportAndContinue := fun n =>
  ⟨(toNat_append_eq_add 0x0#4 n).trans (Nat.zero_add _), toNat_append_eq_add 0xD#4 n,
    toNat_append_eq_add 0xF#4 n, decode_encode (.unsupported0 0#12), by decide, fun s =>
    ⟨completesKeepingAll_of_emit (exec_unsupported0 n s), completesKeepingAll_of_emit (exec_unsupportedD n s),
      completesKeepingAll_of_emit (exec_unsupportedF n s)⟩⟩

end Sys2Proof.Machine
end

section
/-! SUPPORT. What a Cycle does, by the word it fetched: which opcode has which effect, where the operands
of the effect stand in the word, and what follows for the `pc`, the registers, MEM and the report
(spec/40_cycle.md rules R80 to R87). -/

namespace Sys2Proof.Machine

/-! ### The effect of the word fetched -/

/-- The effects of step 5 of rule R80 on the state `s` that the fetch of `w` left, each with the opcodes
that have it and its operand as a field of `w` (rules R65, R83, R87). -/
inductive WordEffect (s : State) (w : Word) : State → Prop where
  | writesReg {d : RegNum} {v : Byte} (hd : p1Field w = d)
      (hop : opField w = 0x1#4 ∨ opField w = 0x2#4 ∨ opField w = 0x6#4 ∨ opField w = 0x7#4 ∨
        opField w = 0x8#4 ∨ opField w = 0x9#4 ∨ opField w = 0xA#4) :
      WordEffect s w (advance (writeReg s d v))
  | writesMem {a v : Byte} (ha : loField w = a) (hop : opField w = 0x3#4) :
      WordEffect s w (advance (writeMem s a v))
  | advances (hop : opField w = 0x4#4 ∨ opField w = 0x5#4 ∨ opField w = 0xE#4 ∨
        opField w = 0xB#4 ∧ readReg s (p1Field w) ≠ readReg s 0#4) :
      WordEffect s w (advance s)
  | jumps {a : Byte} (ha : loField w = a) (hop : opField w = 0xB#4)
      (htaken : readReg s (p1Field w) = readReg s 0#4) :
      WordEffect s w (setPc s a)
  | halts (hop : opField w = 0xC#4) : WordEffect s w s
  | reports {op : BitVec 4} (heq : opField w = op) (hop : op = 0x0#4 ∨ op = 0xD#4 ∨ op = 0xF#4) :
      WordEffect s w (advance (emit s (.unsupportedInstruction op s.pc)))

/-- Each instruction has the effect of its own word. -/
theorem exec_wordEffect (i : Instr) (s : State) :
    ∃ t, exec i s = .next t ∧ WordEffect s (encode i) t := by
  have hop := opField_encode i
  cases i with
  | loadMem r v | loadLiteral r v =>
    exact ⟨_, rfl, .writesReg (p1Field_append_4_8 ..) (by simp [hop, Instr.opcode])⟩
  | orReg d p q | andReg d p q | xorReg d p q | rotate d p q =>
    exact ⟨_, rfl, .writesReg (p1Field_append_4_4_4 ..) (by simp [hop, Instr.opcode])⟩
  | addFloat d p q =>
    obtain ⟨v, -, hv⟩ := exec_addFloat d p q s
    exact ⟨_, hv, .writesReg (p1Field_append_4_4_4 ..) (by simp [hop, Instr.opcode])⟩
  | storeMem r a => exact ⟨_, exec_storeMem .., .writesMem (loField_append_4_8 ..) hop⟩
  | copyReg n => exact ⟨_, exec_copyReg .., .advances (.inl hop)⟩
  | addInt n => exact ⟨_, exec_addInt .., .advances (.inr (.inl hop))⟩
  | extension n => exact ⟨_, exec_extension .., .advances (.inr (.inr (.inl hop)))⟩
  | jumpIfEq r a =>
    have hr : p1Field (encode (.jumpIfEq r a)) = r := p1Field_append_4_8 ..
    refine ⟨_, exec_jumpIfEq .., ?_⟩
    split
    case isTrue htaken => exact .jumps (loField_append_4_8 ..) hop (by rw [hr, htaken])
    case isFalse hnot => exact .advances (.inr (.inr (.inr ⟨hop, by rwa [hr]⟩)))
  | halt n => exact ⟨_, exec_halt .., .halts hop⟩
  | unsupported0 n => exact ⟨_, exec_unsupported0 .., .reports hop (.inl rfl)⟩
  | unsupportedD n => exact ⟨_, exec_unsupportedD .., .reports hop (.inr (.inl rfl))⟩
  | unsupportedF n => exact ⟨_, exec_unsupportedF .., .reports hop (.inr (.inr rfl))⟩

/-- All a Cycle that completes has done: below the top it fetched the two bytes at `pc` into `ir`, and
had the effect of that word (rules R42, R45, R80, R81). -/
theorem step_wordEffect {s t : State} (h : step s = .next t) :
    s.pc ≠ 255#8 ∧ t.ir = s.memAt s.pc ++ s.memAt (s.pc + 1#8) ∧ WordEffect (fetched s t.ir) t.ir t := by
  obtain ⟨w, hw, hx⟩ := step_eq_next.1 h
  have hir : t.ir = w := (exec_frame hx).1
  obtain ⟨hpc, hbytes⟩ := fetchWord_eq_ok.1 hw
  obtain ⟨i, rfl⟩ := exists_encode_eq w
  obtain ⟨u, hu, heff⟩ := exec_wordEffect i (fetched s (encode i))
  rw [decode_encode, hu] at hx
  cases hx
  exact ⟨fun htop => hpc ⟨htop, rfl⟩, hir.trans hbytes, hir.symm ▸ heff⟩

/-! ### What follows for each part of the state -/

namespace WordEffect

variable {s t : State} {w : Word}

/-- The `pc` after the word: kept by a HALT, the target of a jump taken, advanced by 2 else (rule R84). -/
theorem pc (h : WordEffect s w t) :
    t.pc = if opField w = 0xC#4 then s.pc
      else if opField w = 0xB#4 ∧ readReg s (p1Field w) = readReg s 0#4 then loField w
      else s.pc + 2#8 := by
  cases h with
  | writesReg hd hop => grind [advance_pc, writeReg_pc]
  | writesMem ha hop => simp [hop]
  | advances hop => grind [advance_pc]
  | jumps ha hop htaken => simp [hop, htaken, ha]
  | halts hop => rw [if_pos hop]
  | reports heq hop => grind [advance_pc, emit_pc]

/-- The registers and MEM after the word: at most the register `p1` or the cell `lo` differs (rule R87). -/
theorem writes_at_most_one_place (h : WordEffect s w t) :
    (∀ i, i ≠ p1Field w → readReg t i = readReg s i) ∧ (∀ a, t.memAt a = s.memAt a) ∨
    (∀ i, readReg t i = readReg s i) ∧ (∀ a, a ≠ loField w → t.memAt a = s.memAt a) := by
  cases h with
  | writesReg hd hop => exact .inl ⟨fun i hi => readReg_writeReg_other s _ (hd ▸ hi), fun _ => rfl⟩
  | writesMem ha hop =>
    exact .inr ⟨fun _ => rfl, fun b hb => (readMem_writeMem s _ _ b).trans (if_neg (ha ▸ hb))⟩
  | advances | jumps | halts | reports => exact .inl ⟨fun _ _ => rfl, fun _ => rfl⟩

theorem opcode_of_reg_changed (h : WordEffect s w t) {i : RegNum} (hi : readReg t i ≠ readReg s i) :
    opField w = 0x1#4 ∨ opField w = 0x2#4 ∨ opField w = 0x6#4 ∨ opField w = 0x7#4 ∨
    opField w = 0x8#4 ∨ opField w = 0x9#4 ∨ opField w = 0xA#4 := by
  cases h with
  | writesReg hd hop => exact hop
  | writesMem | advances | jumps | halts | reports => exact absurd rfl hi

theorem opcode_of_cell_changed (h : WordEffect s w t) {a : Byte} (ha : t.memAt a ≠ s.memAt a) :
    opField w = 0x3#4 := by
  cases h with
  | writesMem _ hop => exact hop
  | writesReg | advances | jumps | halts | reports => exact absurd rfl ha

/-- The report after the word: the event of an unsupported opcode, and else what it was (rules R67, R88). -/
theorem report (h : WordEffect s w t) :
    t.report = if opField w = 0x0#4 ∨ opField w = 0xD#4 ∨ opField w = 0xF#4
      then some (.unsupportedInstruction (opField w) s.pc) else s.report := by
  cases h with
  | reports heq hop =>
    subst heq
    rw [if_pos hop, advance_report, emit_report]
  | writesReg hd hop => grind [advance_report, writeReg_report]
  | writesMem ha hop => simp [hop]
  | advances hop => grind [advance_report]
  | jumps ha hop htaken => simp [hop]
  | halts hop => simp [hop]

end WordEffect

end Sys2Proof.Machine
end

section
/-! The obligations about a Cycle: the instruction it runs, its outcomes, and what it leaves in `ir`, the
`pc`, the registers, MEM and the report (spec/40_cycle.md). -/

namespace Sys2Proof.Machine

/-- Settles O26: every fetch below the top answers a word, and every instruction completes. -/
theorem cycleOutcomes : Obligations.CycleOutcomes := fun _ => ⟨step_completes, step_at_top⟩

/-- Settles O19: under the byte order decided, the two bytes decode as the word that the fetch makes of them. -/
theorem stepRunsTheDecodedInstruction : Obligations.StepRunsTheDecodedInstruction := by
  intro s i hpc hdec
  have hi : decode (s.memAt s.pc ++ s.memAt (s.pc + 1#8)) = i := congrArg Prod.fst (Except.ok.inj hdec)
  subst hi
  exact step_of_bytes hpc rfl rfl

/-- Settles O21, by the effect of the word fetched; an addition of bytes is one modulo 256. -/
theorem irAndPcAfterACycle : Obligations.IrAndPcAfterACycle := by
  intro s t h
  obtain ⟨hpc, hir, heff⟩ := step_wordEffect h
  have hadd : s.pc + 2#8 = BitVec.ofNat 8 ((s.pc.toNat + 2) % 256) := by bv_omega
  exact ⟨hpc, hir, hadd ▸ heff.pc⟩

/-- Settles O22, by the effect of the word fetched and the frame that every Cycle keeps of the loader. -/
theorem cycleWritesAtMostOnePlace : Obligations.CycleWritesAtMostOnePlace := by
  intro s t h
  obtain ⟨-, -, heff⟩ := step_wordEffect h
  exact ⟨heff.writes_at_most_one_place, fun ⟨_, hi⟩ => heff.opcode_of_reg_changed hi,
    fun ⟨_, ha⟩ => heff.opcode_of_cell_changed ha, (step_frame h).1⟩

/-- Settles O23: the fetch empties the report, which then is what the word fetched leaves there. -/
theorem cycleReportsUnsupportedOpcodes : Obligations.CycleReportsUnsupportedOpcodes := by
  intro s t h
  obtain ⟨-, -, heff⟩ := step_wordEffect h
  exact ⟨heff.report, by simp only [perform, cycleOp, h]⟩

end Sys2Proof.Machine
end

section
/-! SUPPORT. The word of an instruction with a register and a byte operand, what a write of one register
leaves, and what a fetch below the top reads (spec/30_encoding.md rule R62, spec/20_memory.md rule R42). -/

namespace Sys2Proof.Machine

/-- The value of a word put together from two nibbles and a byte (rule R62). -/
theorem toNat_append_4_8 (op p : BitVec 4) (b : Byte) :
    (op ++ p ++ b).toNat = op.toNat * 4096 + p.toNat * 256 + b.toNat := by
  rw [toNat_eq_op_p1_lo, opField_append_4_8, p1Field_append_4_8, loField_append_4_8]

/-- A write of one register is all that `writeReg` does (rule R20). -/
theorem writeReg_writesReg (s : State) (d : RegNum) (v : Byte) : s.WritesReg (writeReg s d v) d v :=
  ⟨readReg_writeReg_same s d v, fun _ hi => readReg_writeReg_other s v hi, rfl, fun _ => rfl,
    rfl, rfl, rfl, rfl, rfl⟩

theorem State.WritesReg.advance {s t : State} {d : RegNum} {v : Byte} (h : s.WritesReg t d v) :
    s.WritesReg (advance t) d v := h

theorem State.WritesMem.advance {s t : State} {a v : Byte} (h : s.WritesMem t a v) :
    s.WritesMem (advance t) a v := h

/-- An instruction whose whole effect is to write a register and advance completes with that write. -/
theorem completesWritingReg_of_advance {i : Instr} {s : State} {d : RegNum} {v : Byte}
    (h : exec i s = .next (advance (writeReg s d v))) : CompletesWritingReg i s d v :=
  ⟨_, h, (writeReg_writesReg s d v).advance, rfl, rfl⟩

/-- A fetch below the top reads the byte at `pc` as the high one of the word (rule R42). -/
theorem fetchWord_memAt {s : State} (h : s.pc ≠ 255#8) :
    fetchWord params s = .ok (s.memAt s.pc ++ s.memAt (s.pc + 1#8)) := fetchWord_params h

end Sys2Proof.Machine
end

section
/-! The obligations about the instructions that move a byte: LOAD-MEM, LOAD-LITERAL and STORE-MEM
(spec/41_data_movement.md). -/

namespace Sys2Proof.Machine

/-- Settles O7: the whole effect is to write the byte read to the register and advance the `pc`. -/
theorem loadMemCopiesTheCell : Obligations.LoadMemCopiesTheCell := fun r a =>
  ⟨toNat_append_4_8 0x1#4 r a, fun s => completesWritingReg_of_advance (exec_loadMem r a s)⟩

/-- Settles O8: the whole effect is to write the literal to the register and advance the `pc`. -/
theorem loadLiteralWritesTheLiteral : Obligations.LoadLiteralWritesTheLiteral := fun r v =>
  ⟨toNat_append_4_8 0x2#4 r v, decode_encode (.loadLiteral 3#4 0x7F#8),
    fun s => completesWritingReg_of_advance (exec_loadLiteral r v s)⟩

/-- Settles O9: the whole effect is to write the cell and advance the `pc`; a later fetch reads MEM as it
then stands, so either of its bytes is the stored one where it comes from that cell. -/
theorem storeMemWritesTheCell : Obligations.StoreMemWritesTheCell := by
  intro r a
  refine ⟨toNat_append_4_8 0x3#4 r a, fun s => ?_⟩
  have hw := (writeMem_writesMem s a (readReg s r)).advance
  refine ⟨_, exec_storeMem r a s, hw, rfl, rfl, fun u hu hpc => ?_⟩
  have hstored : u.memAt a = readReg s r := hu.trans hw.1
  rw [fetchWord_memAt hpc]
  constructor
  case left => intro hhigh; rw [hhigh, hstored]
  case right => intro hlow; rw [hlow, hstored]

end Sys2Proof.Machine
end

section
/-! SUPPORT. One turn of the host's run loop by the outcome of its Cycle, and such a turn where every cell
of MEM holds 0x00 (spec/70_reset_and_hazards.md rule R225, spec/42_reserved_and_unsupported.md rule R103). -/

namespace Sys2Proof.Machine

/-! ### One turn of the run loop -/

theorem runLoop_succ_of_running {s t : State} (h : step s = .next t) (ht : halted t = false) (k : Nat) :
    runLoop (k + 1) s = ((runLoop k t).1, t.report.toList ++ (runLoop k t).2) := by
  simp [runLoop, h, ht]

/-- The run ends at the top of MEM, in the state it came there with (rules R45, R205). -/
theorem runLoop_succ_at_top {s : State} (h : s.pc = 255#8) (k : Nat) :
    runLoop (k + 1) s = (.faulted s (.fetchOutOfBounds 255#8), []) := by
  simp only [runLoop, step_at_top h, afterCycleFault]

/-! ### Zero-filled memory -/

/-- Every cell of MEM holds 0x00. -/
def State.ZeroFilled (s : State) : Prop := ∀ a, s.memAt a = 0x00#8

/-- The word of two zero cells is not a HALT (rule R24). -/
theorem halted_of_ir_zero {s : State} (h : s.ir = 0x0000#16) : halted s = false := by
  rw [halted, h]
  decide

/-- Below the top the word 0x0000 is fetched: opcode 0x0, which reports its event and advances (rule R103). -/
theorem State.ZeroFilled.step_reports {s : State} (hz : s.ZeroFilled) (hpc : s.pc ≠ 255#8) :
    step s = .next (advance (emit (fetched s 0x0000#16) (.unsupportedInstruction 0x0#4 s.pc))) := by
  have hdec : decode (0x00#8 ++ 0x00#8) = .unsupported0 0#12 := by decide
  rw [step_of_bytes hpc (hz _) (hz _), hdec, exec_unsupported0]
  rfl

/-- A turn of the run loop from below the top goes on with MEM as it was, the `pc` two further and one
event more. -/
theorem State.ZeroFilled.runLoop_succ {s : State} (hz : s.ZeroFilled) (hpc : s.pc ≠ 255#8) :
    ∃ t e, t.ZeroFilled ∧ t.pc = s.pc + 2#8 ∧
      ∀ k, runLoop (k + 1) s = ((runLoop k t).1, e :: (runLoop k t).2) := by
  refine ⟨_, _, ?mem, ?pc, runLoop_succ_of_running (hz.step_reports hpc) (halted_of_ir_zero rfl)⟩
  case mem => exact hz
  case pc => rfl

/-- An even `pc` is never 255 and stays even, since 256 is even. -/
theorem State.ZeroFilled.runLoop_of_even (k : Nat) {s : State} (hz : s.ZeroFilled)
    (heven : s.pc.toNat % 2 = 0) :
    (∃ t, (runLoop k s).1 = .stillRunning t) ∧ (runLoop k s).2.length = k := by
  induction k generalizing s with
  | zero => exact ⟨⟨s, rfl⟩, rfl⟩
  | succ k ih =>
    have hpc : s.pc ≠ 255#8 := by bv_omega
    obtain ⟨t, e, htz, htpc, hrun⟩ := hz.runLoop_succ hpc
    have hteven : t.pc.toNat % 2 = 0 := by rw [htpc]; bv_omega
    obtain ⟨hstill, hlen⟩ := ih htz hteven
    rw [hrun]
    exact ⟨hstill, congrArg Nat.succ hlen⟩

/-- A `pc` that is `2 * n` below 255 reaches 255 in `n` turns, and the next one faults. -/
theorem State.ZeroFilled.runLoop_of_odd (n : Nat) {s : State} (hz : s.ZeroFilled)
    (hn : s.pc.toNat + 2 * n = 255) :
    ∃ t, (runLoop (n + 1) s).1 = .faulted t (.fetchOutOfBounds 255#8) := by
  induction n generalizing s with
  | zero =>
    have htop : s.pc = 255#8 := by bv_omega
    exact ⟨s, congrArg Prod.fst (runLoop_succ_at_top htop 0)⟩
  | succ n ih =>
    have hpc : s.pc ≠ 255#8 := by bv_omega
    obtain ⟨t, e, htz, htpc, hrun⟩ := hz.runLoop_succ hpc
    have htn : t.pc.toNat + 2 * n = 255 := by rw [htpc]; bv_omega
    rw [hrun]
    exact ih htz htn

end Sys2Proof.Machine
end

section
/-! The obligation about zero-filled memory (spec/42_reserved_and_unsupported.md rule R103). -/

namespace Sys2Proof.Machine

/-- Settles O59: the parity of the `pc` is kept, so an even one steps over 255 and an odd one meets it. -/
theorem zeroFilledMemoryNeverHalts : Obligations.ZeroFilledMemoryNeverHalts := by
  intro s hz
  refine ⟨fun heven k => State.ZeroFilled.runLoop_of_even k hz heven, fun hodd => ?_⟩
  have hn : s.pc.toNat + 2 * ((255 - s.pc.toNat) / 2) = 255 := by bv_omega
  exact ⟨_, State.ZeroFilled.runLoop_of_odd _ hz hn⟩

end Sys2Proof.Machine
end

section
/-! SUPPORT. The fields of a byte as a minifloat, the closed forms of `Widen` and of `Narrow`'s loop,
`Narrow` in the normal range of its window, and `MfAdd` by the values of its operands
(spec/43_minifloat.md rules R110 and R115 to R127). -/

namespace Sys2Proof.Machine

/-! ### The fields of a byte -/

theorem mfSign_eq (m : Byte) : mfSign m = decide (128 ≤ m.toNat) := BitVec.msb_eq_decide m

theorem mfExp_eq (m : Byte) : mfExp m = m.toNat / 16 % 8 := by
  rw [mfExp, BitVec.extractLsb'_toNat, Nat.shiftRight_eq_div_pow]

theorem mfMant_eq (m : Byte) : mfMant m = m.toNat % 16 := by
  rw [mfMant, BitVec.extractLsb'_toNat, Nat.shiftRight_zero]

theorem mfMant_lt (m : Byte) : mfMant m < 16 := BitVec.isLt _

/-- A byte is its sign, its exponent field and its mantissa (rule R110). -/
theorem toNat_eq_fields (m : Byte) : m.toNat = (mfSign m).toNat * 128 + mfExp m * 16 + mfMant m := by
  have hm : m.toNat < 256 := m.isLt
  rw [mfSign_eq, mfExp_eq, mfMant_eq]
  by_cases hS : 128 ≤ m.toNat
  case pos => rw [decide_eq_true hS, Bool.toNat_true]; omega
  case neg => rw [decide_eq_false hS, Bool.toNat_false]; omega

theorem byte_ext_fields {m n : Byte} (hS : mfSign m = mfSign n) (hE : mfExp m = mfExp n)
    (hM : mfMant m = mfMant n) : m = n :=
  BitVec.eq_of_toNat_eq (by rw [toNat_eq_fields m, toNat_eq_fields n, hS, hE, hM])

/-- The three parts of a packed byte do not overlap (rule R110). -/
theorem toNat_packMinifloat (s : Bool) {e : Nat} (he : e < 8) (t : Nat) :
    (packMinifloat s e t).toNat = s.toNat * 128 + e * 16 + t % 16 := by
  have hs : s.toNat < 2 := s.toNat_lt
  have hmant : t % 16 < 2 ^ 4 := Nat.mod_lt _ (by decide)
  have hlow : e <<< 4 + t % 16 < 2 ^ 7 := by rw [Nat.shiftLeft_eq]; omega
  rw [packMinifloat, BitVec.toNat_ofNat, Nat.or_assoc, ← Nat.shiftLeft_add_eq_or_of_lt hmant,
    ← Nat.shiftLeft_add_eq_or_of_lt hlow, Nat.shiftLeft_eq, Nat.shiftLeft_eq]
  omega

section
variable (s : Bool) {e : Nat} (he : e < 8) (t : Nat)
include he

theorem mfSign_packMinifloat : mfSign (packMinifloat s e t) = s := by
  rw [mfSign_eq, toNat_packMinifloat s he]
  cases s
  case false => exact decide_eq_false (by simp only [Bool.toNat_false]; omega)
  case true => exact decide_eq_true (by simp only [Bool.toNat_true]; omega)

theorem mfExp_packMinifloat : mfExp (packMinifloat s e t) = e := by
  rw [mfExp_eq, toNat_packMinifloat s he]; omega

theorem mfMant_packMinifloat : mfMant (packMinifloat s e t) = t % 16 := by
  rw [mfMant_eq, toNat_packMinifloat s he]; omega

end

/-! ### Widen: its magnitude, its leading one and its sign -/

/-- The hidden one stands above the mantissa (rule R115). -/
theorem significand_eq (m : Byte) : significand m = 16 + mfMant m :=
  (Nat.two_pow_add_eq_or_of_lt (i := 4) (mfMant_lt m) 1).symm ▸ Nat.or_comm _ _

/-- A right shift by at most 3 removes only zeros that the left shift by 3 put in (rule R116). -/
theorem widenMag_eq (m : Byte) : widenMag m = (16 + mfMant m) * 2 ^ mfExp m := by
  rw [← significand_eq, ← Nat.shiftLeft_eq]
  unfold widenMag
  dsimp only
  split
  case isTrue hpos => rw [← Nat.shiftLeft_add]; congr 1; omega
  case isFalse hneg => rw [← Nat.shiftLeft_sub _ (by omega)]; congr 1; omega

theorem two_pow_le_widenMag (m : Byte) : 2 ^ (4 + mfExp m) ≤ widenMag m := by
  rw [widenMag_eq, pow_add]
  exact Nat.mul_le_mul_right _ (by omega)

theorem widenMag_lt_two_pow (m : Byte) : widenMag m < 2 ^ (4 + mfExp m + 1) := by
  have hM := mfMant_lt m
  rw [widenMag_eq, add_right_comm, pow_add]
  exact Nat.mul_lt_mul_of_pos_right (by omega) (Nat.two_pow_pos _)

theorem le_widenMag (m : Byte) : 16 ≤ widenMag m :=
  (Nat.pow_le_pow_right (by decide) (Nat.le_add_right 4 _)).trans (two_pow_le_widenMag m)

/-- The leading one of the magnitude is at bit `4 + E` (rule R116). -/
theorem log2_widenMag (m : Byte) : (widenMag m).log2 = 4 + mfExp m :=
  (Nat.log2_eq_iff (by have := le_widenMag m; omega)).2 ⟨two_pow_le_widenMag m, widenMag_lt_two_pow m⟩

theorem widen_neg_iff (m : Byte) : widen m < 0 ↔ mfSign m = true := by
  have := le_widenMag m
  unfold widen
  split
  case isTrue hS => exact iff_of_true (by omega) hS
  case isFalse hS => exact iff_of_false (by omega) hS

/-- A value is the Widen of a byte of its sign and magnitude. -/
theorem widen_eq_of {m : Byte} {v : Int} (hS : mfSign m = decide (v < 0)) (hmag : widenMag m = v.natAbs) :
    widen m = v := by
  rw [widen, hS, hmag]
  split
  case isTrue hneg => have := of_decide_eq_true hneg; omega
  case isFalse hpos => have := mt decide_eq_true hpos; omega

/-- The sum of two operands is at most twice the greatest magnitude (rule R125). -/
theorem natAbs_widen_add_le (a b : Byte) : (widen a + widen b).natAbs ≤ 7936 := by
  have ha := natAbs_widen a ▸ widenMag_le a
  have hb := natAbs_widen b ▸ widenMag_le b
  omega

/-! ### Narrow's loop -/

/-- Every shift of the loop moves the leading one up by one bit, until it is at bit 11 (rule R118). -/
theorem normalise_of_log2 {n w : Nat} (hw : w ≠ 0) (h : w.log2 + n = 11) (fuel c : Nat) :
    normalise (n + fuel) w c = (w * 2 ^ n, c + n) := by
  induction n generalizing w c with
  | zero =>
    have htop : w.testBit 11 = true := h ▸ Nat.testBit_log2 hw
    cases fuel <;> simp [normalise, htop]
  | succ n ih =>
    have hclear : w.testBit 11 = false := Nat.testBit_eq_false_of_lt ((Nat.log2_lt hw).1 (by omega))
    have hlog : (w <<< 1).log2 = w.log2 + 1 := by
      rw [Nat.shiftLeft_eq, Nat.mul_comm, pow_one, Nat.log2_two_mul hw]
    have hnext : w <<< 1 ≠ 0 := by rw [Nat.shiftLeft_eq]; omega
    rw [Nat.add_right_comm, normalise, hclear, if_neg Bool.false_ne_true, ih hnext (by omega),
      Nat.shiftLeft_eq, Nat.mul_assoc, ← pow_add, Nat.add_assoc, Nat.add_comm 1]

theorem log2_le_eleven {w : Nat} (hw : w ≠ 0) (h : w < 4096) : w.log2 ≤ 11 :=
  Nat.lt_succ_iff.1 ((Nat.log2_lt hw).2 h)

theorem normalise_window {w : Nat} (hw : w ≠ 0) (h : w < 4096) :
    normalise 11 w 0 = (w * 2 ^ (11 - w.log2), 11 - w.log2) := by
  have hk := log2_le_eleven hw h
  have hrun := normalise_of_log2 (n := 11 - w.log2) hw (by omega) w.log2 0
  rwa [Nat.sub_add_cancel hk, Nat.zero_add] at hrun

/-- Shifting the leading one up to bit 11 leaves it there (rule R118). -/
theorem log2_normalised {w : Nat} (hw : w ≠ 0) (h : w < 4096) : (w * 2 ^ (11 - w.log2)).log2 = 11 := by
  have hk := log2_le_eleven hw h
  have hlow : 2 ^ 11 = 2 ^ w.log2 * 2 ^ (11 - w.log2) := by rw [← pow_add]; congr 1; omega
  have hhigh : 2 ^ 12 = 2 ^ (w.log2 + 1) * 2 ^ (11 - w.log2) := by rw [← pow_add]; congr 1; omega
  have hpos : 0 < 2 ^ (11 - w.log2) := Nat.two_pow_pos _
  refine (Nat.log2_eq_iff (Nat.mul_ne_zero hw hpos.ne')).2 ⟨?_, ?_⟩
  · exact hlow ▸ Nat.mul_le_mul_right _ (Nat.log2_self_le hw)
  · exact hhigh ▸ Nat.mul_lt_mul_of_pos_right Nat.lt_log2_self hpos

/-! ### Narrow in the normal range of its window -/

/-- The byte of rule R119: with the leading one of `w` at bit `k`, the exponent field is `k - 4` and the
mantissa the four bits below the leading one. `narrow_normal` says that it is what `Narrow` answers. -/
def truncatedByte (s : Bool) (w : Nat) : Byte := packMinifloat s (w.log2 - 4) (w / 2 ^ (w.log2 - 4))

section
variable {w : Nat} (h16 : 16 ≤ w)
include h16

theorem four_le_log2 : 4 ≤ w.log2 := (Nat.le_log2 (by omega)).2 h16

/-- The five bits from the leading one down, as a number (rule R119). -/
theorem topFiveBits_bounds : 16 ≤ w / 2 ^ (w.log2 - 4) ∧ w / 2 ^ (w.log2 - 4) < 32 := by
  have hk := four_le_log2 h16
  have hlow : 2 ^ w.log2 = 2 ^ 4 * 2 ^ (w.log2 - 4) := by rw [← pow_add]; congr 1; omega
  have hhigh : 2 ^ (w.log2 + 1) = 2 ^ (w.log2 - 4) * 2 ^ 5 := by rw [← pow_add]; congr 1; omega
  constructor
  · exact (Nat.le_div_iff_mul_le (Nat.two_pow_pos _)).2 (hlow ▸ Nat.log2_self_le (by omega))
  · exact Nat.div_lt_of_lt_mul (hhigh ▸ Nat.lt_log2_self)

/-- No byte has a magnitude above the truncated one and not above `w` (rule R119). -/
theorem widenMag_le_truncated {n : Byte} (hn : widenMag n ≤ w) :
    widenMag n ≤ w / 2 ^ (w.log2 - 4) * 2 ^ (w.log2 - 4) := by
  have hE : 4 + mfExp n ≤ w.log2 := (Nat.le_log2 (by omega)).2 ((two_pow_le_widenMag n).trans hn)
  obtain hlt | heq := (show mfExp n ≤ w.log2 - 4 by omega).lt_or_eq
  · calc widenMag n
        ≤ 2 ^ (4 + mfExp n + 1) := (widenMag_lt_two_pow n).le
      _ ≤ 2 ^ (4 + (w.log2 - 4)) := Nat.pow_le_pow_right (by decide) (by omega)
      _ = 16 * 2 ^ (w.log2 - 4) := pow_add 2 4 _
      _ ≤ w / 2 ^ (w.log2 - 4) * 2 ^ (w.log2 - 4) := Nat.mul_le_mul_right _ (topFiveBits_bounds h16).1
  · rw [widenMag_eq, heq] at hn ⊢
    exact Nat.mul_le_mul_right _ ((Nat.le_div_iff_mul_le (Nat.two_pow_pos _)).2 hn)

variable (hw : w < 4096)
include hw

theorem log2_sub_four_lt : w.log2 - 4 < 8 := by
  have := log2_le_eleven (by omega) hw
  omega

theorem mfSign_truncatedByte (s : Bool) : mfSign (truncatedByte s w) = s :=
  mfSign_packMinifloat s (log2_sub_four_lt h16 hw) _

theorem mfExp_truncatedByte (s : Bool) : mfExp (truncatedByte s w) = w.log2 - 4 :=
  mfExp_packMinifloat s (log2_sub_four_lt h16 hw) _

theorem mfMant_truncatedByte (s : Bool) : mfMant (truncatedByte s w) = w / 2 ^ (w.log2 - 4) - 16 := by
  obtain ⟨hlow, hhigh⟩ := topFiveBits_bounds h16
  rw [truncatedByte, mfMant_packMinifloat s (log2_sub_four_lt h16 hw)]
  omega

theorem widenMag_truncatedByte (s : Bool) :
    widenMag (truncatedByte s w) = w / 2 ^ (w.log2 - 4) * 2 ^ (w.log2 - 4) := by
  rw [widenMag_eq, mfExp_truncatedByte h16 hw, mfMant_truncatedByte h16 hw,
    Nat.add_sub_cancel' (topFiveBits_bounds h16).1]

/-- The one truncated byte that is 0x00 (rule R123). -/
theorem truncatedByte_eq_zero_iff (s : Bool) : truncatedByte s w = 0x00#8 ↔ s = false ∧ w = 16 := by
  constructor
  · intro h
    have hS := mfSign_truncatedByte h16 hw s
    have hE := mfExp_truncatedByte h16 hw s
    have hM := mfMant_truncatedByte h16 hw s
    rw [h] at hS hE hM
    rw [← hE, show mfExp 0x00#8 = 0 from rfl, pow_zero, Nat.div_one, show mfMant 0x00#8 = 0 from rfl] at hM
    exact ⟨hS.symm, by omega⟩
  · rintro ⟨rfl, rfl⟩
    decide

/-- The one shift more and the shift back by 8 leave the five bits from the leading one down (rule R118). -/
theorem normalised_topFiveBits : (w * 2 ^ (11 - w.log2)) <<< 1 >>> 8 = w / 2 ^ (w.log2 - 4) := by
  have hk := log2_le_eleven (by omega) hw
  have hk' := four_le_log2 h16
  have hback : 2 ^ 8 = 2 ^ (w.log2 - 4) * 2 ^ (11 - w.log2 + 1) := by rw [← pow_add]; congr 1; omega
  rw [Nat.shiftLeft_eq, Nat.mul_assoc, ← pow_add, Nat.shiftRight_eq_div_pow, hback,
    Nat.mul_div_mul_right _ _ (Nat.two_pow_pos _)]

omit hw

theorem narrow_normal {P : Params} {v : Int} (hv : v.natAbs % 4096 = w) :
    narrow P v = some (truncatedByte (decide (v < 0)) w) := by
  have hw : w < 4096 := hv ▸ Nat.mod_lt _ (by decide)
  have hk := four_le_log2 h16
  have hE : 7 - (11 - w.log2) = w.log2 - 4 := by have := log2_le_eleven (by omega) hw; omega
  rw [narrow, hv, if_neg (by omega), normalise_window (by omega) hw]
  dsimp only
  rw [if_neg (by omega), normalised_topFiveBits h16 hw, hE, truncatedByte]

end

/-! ### Narrow and MfAdd on the values of bytes -/

/-- `Narrow` looks at the sign and at the low twelve bits of the magnitude (rule R122). -/
theorem narrow_congr {P : Params} {v v' : Int} (hneg : v < 0 ↔ v' < 0)
    (hmod : v.natAbs % 4096 = v'.natAbs % 4096) : narrow P v = narrow P v' := by
  simp only [narrow, hneg, hmod]

/-- The width of the fixed-point word is no part of `Narrow` (rule R117). -/
theorem narrow_fixedWidth (P : Params) (n : Nat) (v : Int) :
    narrow { P with fixedWidth := n } v = narrow P v := rfl

theorem truncatedByte_widenMag (m : Byte) : truncatedByte (mfSign m) (widenMag m) = m := by
  have h16 := le_widenMag m
  have hw : widenMag m < 4096 := (widenMag_le m).trans_lt (by decide)
  have hE : (widenMag m).log2 - 4 = mfExp m := by rw [log2_widenMag, Nat.add_sub_cancel_left]
  refine byte_ext_fields (mfSign_truncatedByte h16 hw _) ((mfExp_truncatedByte h16 hw _).trans hE) ?mant
  case mant =>
    rw [mfMant_truncatedByte h16 hw, hE, widenMag_eq, Nat.mul_div_cancel _ (Nat.two_pow_pos _),
      Nat.add_sub_cancel_left]

/-- `Narrow` undoes `Widen`, at 0x00 too (rule R126). -/
theorem narrow_widen (P : Params) (m : Byte) : narrow P (widen m) = some m := by
  have hwindow : (widen m).natAbs % 4096 = widenMag m := by
    rw [natAbs_widen]
    exact Nat.mod_eq_of_lt ((widenMag_le m).trans_lt (by decide))
  have hS : decide (widen m < 0) = mfSign m := by simp only [widen_neg_iff, Bool.decide_eq_true]
  rw [narrow_normal (le_widenMag m) hwindow, hS, truncatedByte_widenMag]

/-- Where `Narrow` answers the zero byte, under the decided parameters (rules R120, R121, R123). -/
theorem narrow_eq_zero_iff (v : Int) :
    narrow params v = some 0x00#8 ↔ v.natAbs % 4096 < 16 ∨ (v.natAbs % 4096 = 16 ∧ 0 ≤ v) := by
  by_cases hzero : v.natAbs % 4096 = 0
  · simp [narrow_zero hzero, hzero]
  by_cases hsmall : v.natAbs % 4096 < 16
  · simp [narrow_underflow (P := params) (v := v) (by omega) (by omega), hsmall]
  have hlt : v.natAbs % 4096 < 4096 := Nat.mod_lt _ (by decide)
  rw [narrow_normal (by omega) rfl, Option.some_inj, truncatedByte_eq_zero_iff (by omega) hlt,
    decide_eq_false_iff_not]
  omega

theorem mfAdd_comm {P : Params} (a b : Byte) : mfAdd P a b = mfAdd P b a := by
  by_cases ha : a = 0x00#8
  · rw [ha, mfAdd_zero_left, mfAdd_zero_right]
  by_cases hb : b = 0x00#8
  · rw [hb, mfAdd_zero_left, mfAdd_zero_right]
  rw [mfAdd_nonzero P ha hb, mfAdd_nonzero P hb ha, fixedAdd, fixedAdd, Int.add_comm]

/-- Two non-zero operands narrow their exact sum, at every width that holds it (rules R117, R124, R125). -/
theorem mfAdd_eq_narrow {P : Params} (h : 14 ≤ P.fixedWidth) {a b : Byte} (ha : a ≠ 0x00#8)
    (hb : b ≠ 0x00#8) : mfAdd P a b = narrow P (widen a + widen b) := by
  rw [mfAdd_nonzero P ha hb, fixedAdd_widen h]

theorem mfAdd_fixedWidth {P : Params} (hP : 14 ≤ P.fixedWidth) {n : Nat} (hn : 14 ≤ n) (a b : Byte) :
    mfAdd { P with fixedWidth := n } a b = mfAdd P a b := by
  by_cases ha : a = 0x00#8
  · rw [ha, mfAdd_zero_left, mfAdd_zero_left]
  by_cases hb : b = 0x00#8
  · rw [hb, mfAdd_zero_right, mfAdd_zero_right]
  rw [mfAdd_eq_narrow hn ha hb, mfAdd_eq_narrow hP ha hb, narrow_fixedWidth]

theorem mfAdd_widen_opposite {P : Params} (hP : 14 ≤ P.fixedWidth) {a b : Byte} (ha : a ≠ 0x00#8)
    (hb : b ≠ 0x00#8) (h : widen b = -widen a) : mfAdd P a b = P.narrowZero := by
  rw [mfAdd_eq_narrow hP ha hb, h, Int.add_right_neg, narrow_zero (by decide)]

/-- The exclusive or with 0x80 flips the sign alone, so the values are opposite (rule R114). -/
theorem widen_xor_sign (a : Byte) : widen (a ^^^ 0x80#8) = -widen a := by
  have hS : mfSign (a ^^^ 0x80#8) = !mfSign a := by simp [mfSign]
  have hE : mfExp (a ^^^ 0x80#8) = mfExp a := by simp [mfExp, BitVec.extractLsb'_xor]
  have hM : mfMant (a ^^^ 0x80#8) = mfMant a := by simp [mfMant, BitVec.extractLsb'_xor]
  have hmag : widenMag (a ^^^ 0x80#8) = widenMag a := by rw [widenMag_eq, widenMag_eq, hE, hM]
  rw [widen, widen, hS, hmag]
  cases mfSign a <;> simp

/-- One more in an exponent field below 7 doubles the value (rule R127). -/
theorem widen_exponent_succ {a : Byte} (h : mfExp a < 7) : widen (a + 0x10#8) = widen a + widen a := by
  rw [mfExp_eq] at h
  have hsum : (a + 0x10#8).toNat = a.toNat + 16 := by bv_omega
  have hS : mfSign (a + 0x10#8) = mfSign a := by
    rw [mfSign_eq, mfSign_eq, hsum]
    exact decide_eq_decide.2 (by omega)
  have hE : mfExp (a + 0x10#8) = mfExp a + 1 := by rw [mfExp_eq, mfExp_eq, hsum]; omega
  have hM : mfMant (a + 0x10#8) = mfMant a := by rw [mfMant_eq, mfMant_eq, hsum]; omega
  have hmag : widenMag (a + 0x10#8) = 2 * widenMag a := by
    rw [widenMag_eq, widenMag_eq, hE, hM, pow_succ]; ring
  rw [widen, widen, hS, hmag]
  split <;> omega

/-- Doubling a non-zero operand of exponent field below 7 is exact (rule R127). -/
theorem mfAdd_self {P : Params} (hP : 14 ≤ P.fixedWidth) {a : Byte} (ha : a ≠ 0x00#8) (hE : mfExp a < 7) :
    mfAdd P a a = some (a + 0x10#8) := by
  rw [mfAdd_eq_narrow hP ha ha, ← widen_exponent_succ hE, narrow_widen]

end Sys2Proof.Machine
end

section
/-! SUPPORT. The value of a word in format RRR (spec/30_encoding.md rule R62). -/

namespace Sys2Proof.Machine

/-- The value of a word put together from four nibbles (rule R62). -/
theorem toNat_append_4_4_4 (op p q r : BitVec 4) :
    (op ++ p ++ q ++ r).toNat = op.toNat * 4096 + p.toNat * 256 + q.toNat * 16 + r.toNat := by
  obtain ⟨hword, -⟩ := wordIsItsFourNibbles (op ++ p ++ q ++ r)
  rwa [opField_append_4_4_4, p1Field_append_4_4_4, p2Field_append_4_4_4, p3Field_append_4_4_4] at hword

end Sys2Proof.Machine
end

section
/-! The obligations about the minifloat codec and the instruction ADD-FLOAT (spec/43_minifloat.md). -/

namespace Sys2Proof.Machine

/-- Settles O52: each shift moves the leading one up by one bit, and it ends at bit 11. -/
theorem normaliseFindsTheLeadingOne : Obligations.NormaliseFindsTheLeadingOne := by
  intro w hpos hw
  have hlog := log2_normalised hpos.ne' hw
  have hne : w * 2 ^ (11 - w.log2) ≠ 0 := by positivity
  rw [normalise_window hpos.ne' hw]
  refine ⟨rfl, ?bit, (Nat.log2_lt (k := 12) hne).1 (by omega), Nat.sub_le _ _⟩
  case bit =>
    have htop := Nat.testBit_log2 hne
    rwa [hlog] at htop

/-- Settles O53: `Narrow` answers the truncated byte, whose magnitude is `|v|` with the bits below bit
`k - 4` cleared. -/
theorem narrowTruncatesTowardZero : Obligations.NarrowTruncatesTowardZero := by
  intro v h16 hle
  have hw : v.natAbs < 4096 := Nat.lt_succ_of_le hle
  have hS := mfSign_truncatedByte h16 hw (decide (v < 0))
  have hmag := widenMag_truncatedByte h16 hw (decide (v < 0))
  refine ⟨truncatedByte (decide (v < 0)) v.natAbs, narrow_normal h16 (Nat.mod_eq_of_lt hw),
    four_le_log2 h16, log2_le_eleven (by omega) hw, hS, mfExp_truncatedByte h16 hw _,
    mfMant_truncatedByte h16 hw _, ?notAbove, fun n hn => ?greatest, fun hdvd => ?exact⟩
  case notAbove => rw [natAbs_widen, hmag]; exact Nat.div_mul_le_self _ _
  case greatest =>
    rw [natAbs_widen] at hn ⊢
    rw [natAbs_widen, hmag]
    exact widenMag_le_truncated h16 hn
  case exact => exact widen_eq_of hS (hmag.trans (Nat.div_mul_cancel (Nat.dvd_of_mod_eq_zero hdvd)))

/-- Settles O54: `Narrow` is a function of the sign test and the window, and the one byte 0x00 of the
normal range is that of +16. -/
theorem narrowOutsideTheNormalRange : Obligations.NarrowOutsideTheNormalRange :=
  ⟨fun _ _ _ => narrow_congr, narrow_eq_zero_iff, by decide, by decide⟩

/-- Settles O55, by the bound of each operand. -/
theorem fixedPointSumIsExact : Obligations.FixedPointSumIsExact := fun a b =>
  ⟨fixedAdd_widen (by decide) a b, natAbs_widen_add_le a b,
    fun _ hn => mfAdd_fixedWidth (by decide) hn a b⟩

/-- Settles O56: the zero operand bypasses the codec, the sum of integers is commutative, and the opposite
byte has the opposite value. -/
theorem mfAddLaws : Obligations.MfAddLaws := by
  refine ⟨fun a => ⟨mfAdd_zero_right _ a, mfAdd_zero_left _ a⟩, mfAdd_comm, narrow_widen _,
    by decide, fun a ha hsign => ?opposite, ⟨mfAdd_zero_left _ _, mfAdd_zero_right _ _⟩⟩
  case opposite =>
    exact mfAdd_widen_opposite (by decide) ha (mt BitVec.xor_eq_zero_iff.1 hsign) (widen_xor_sign a)

/-- Settles O12: the whole effect is to write the sum and advance the `pc`, and doubling adds one to the
exponent field. -/
theorem addFloatWritesTheSum : Obligations.AddFloatWritesTheSum := by
  intro d p q
  refine ⟨toNat_append_4_4_4 0x6#4 d p q, fun s => ?_⟩
  obtain ⟨v, hv, hexec⟩ := exec_addFloat d p q s
  refine ⟨v, hv, completesWritingReg_of_advance hexec, fun hpq hne hE => ?doubling⟩
  case doubling =>
    rw [← hpq, mfAdd_self (by decide) hne hE] at hv
    exact (Option.some.inj hv).symm

/-- Settles O51, by the closed form of the magnitude. -/
theorem widenClosedForm : Obligations.WidenClosedForm := by
  intro m
  rw [natAbs_widen]
  refine ⟨?value, le_widenMag m, widenMag_le m, log2_widenMag m⟩
  case value =>
    rw [← widenMag_eq, widen, mfSign]
    split <;> simp

end Sys2Proof.Machine
end

section
/-! SUPPORT. The result of a rotate bit by bit, the bytes a rotate keeps, and the minifloat fields of an
exclusive or (spec/44_logic_rotate.md rules R142 and R143). -/

namespace Sys2Proof.Machine

/-! ### Rotate -/

theorem rotateCount_lt (c : BitVec 4) : rotateCount c < 8 := Nat.mod_lt _ (by decide)

@[simp] theorem ror8_zero (v : Byte) : ror8 v 0 = v := if_pos rfl

/-- The bits from `r` up come down by `r` in the right shift; those below `r` come in from the left one
(rule R143). -/
theorem getLsbD_ror8 (v : Byte) {r i : Nat} (hr : r < 8) (hi : i < 8) :
    (ror8 v r).getLsbD i = v.getLsbD ((i + r) % 8) := by
  by_cases hr₀ : r = 0
  case pos => rw [hr₀, ror8_zero, Nat.add_zero, Nat.mod_eq_of_lt hi]
  case neg =>
    rw [ror8, if_neg hr₀, BitVec.getLsbD_or, BitVec.getLsbD_ushiftRight, BitVec.getLsbD_shiftLeft]
    by_cases hwrap : i + r < 8
    case pos =>
      have hleft : i < 8 - r := by omega
      rw [Nat.mod_eq_of_lt hwrap, Nat.add_comm r i]
      simp [hleft]
    case neg =>
      have hright : v.getLsbD (r + i) = false := BitVec.getLsbD_of_ge v _ (by omega)
      have hleft : ¬ i < 8 - r := by omega
      have hpos : (i + r) % 8 = i - (8 - r) := by omega
      rw [hright, hpos]
      simp [hi, hleft]

/-- A byte whose bits are all the same is a fixed point of every rotate (rule R143). -/
theorem ror8_eq_self_of_bits_eq {v : Byte} {r : Nat} {b : Bool} (hr : r < 8)
    (h : ∀ i < 8, v.getLsbD i = b) : ror8 v r = v := by
  refine BitVec.eq_of_getLsbD_eq fun i hi => ?_
  rw [getLsbD_ror8 v hr hi, h i hi, h _ (Nat.mod_lt _ (by decide))]

theorem ror8_rotateCount_of_zero_or_eight {c : BitVec 4} (v : Byte) (h : c = 0#4 ∨ c = 8#4) :
    ror8 v (rotateCount c) = v := by
  have hcount : rotateCount c = 0 := by obtain rfl | rfl := h <;> rfl
  rw [hcount, ror8_zero]

theorem ror8_rotateCount_of_zeros_or_ones {v : Byte} (c : BitVec 4) (h : v = 0x00#8 ∨ v = 0xFF#8) :
    ror8 v (rotateCount c) = v := by
  obtain rfl | rfl := h
  · exact ror8_eq_self_of_bits_eq (b := false) (rotateCount_lt c) (by decide)
  · exact ror8_eq_self_of_bits_eq (b := true) (rotateCount_lt c) (by decide)

/-! ### The minifloat fields of an exclusive or -/

theorem mfSign_xor (a b : Byte) : mfSign (a ^^^ b) = (mfSign a ^^ mfSign b) := BitVec.getLsbD_xor

theorem mfExp_xor (a b : Byte) : mfExp (a ^^^ b) = mfExp a ^^^ mfExp b := by
  rw [mfExp, BitVec.extractLsb'_xor, BitVec.toNat_xor, ← mfExp, ← mfExp]

theorem mfMant_xor (a b : Byte) : mfMant (a ^^^ b) = mfMant a ^^^ mfMant b := by
  rw [mfMant, BitVec.extractLsb'_xor, BitVec.toNat_xor, ← mfMant, ← mfMant]

/-- The byte 0x80 has the sign bit and no other, so the exclusive or with it flips the sign and keeps the
exponent and the mantissa (rule R142). -/
theorem fields_xor_sign (a : Byte) : mfSign (a ^^^ 0x80#8) = !mfSign a ∧
    mfExp (a ^^^ 0x80#8) = mfExp a ∧ mfMant (a ^^^ 0x80#8) = mfMant a :=
  ⟨(mfSign_xor a 0x80#8).trans (Bool.xor_true _), (mfExp_xor a 0x80#8).trans (Nat.xor_zero _),
    (mfMant_xor a 0x80#8).trans (Nat.xor_zero _)⟩

end Sys2Proof.Machine
end

section
/-! The obligations about OR, AND, XOR and ROTATE (spec/44_logic_rotate.md). -/

namespace Sys2Proof.Machine

/-- Settles O13: the whole effect is to write the bitwise or and advance the `pc`. -/
theorem orWritesBitwiseOr : Obligations.OrWritesBitwiseOr := by
  intro d p q
  refine ⟨toNat_append_4_4_4 0x7#4 d p q, fun s => ⟨_, completesWritingReg_of_advance (exec_orReg d p q s),
    fun _ => BitVec.getLsbD_or, ?move⟩⟩
  case move => rintro rfl; exact BitVec.or_self

/-- Settles O14: the whole effect is to write the bitwise and and advance the `pc`. -/
theorem andWritesBitwiseAnd : Obligations.AndWritesBitwiseAnd := by
  intro d p q
  refine ⟨toNat_append_4_4_4 0x8#4 d p q, fun s => ⟨_, completesWritingReg_of_advance (exec_andReg d p q s),
    fun _ => BitVec.getLsbD_and, ?move, fun hq => ?zero⟩⟩
  case move => rintro rfl; exact BitVec.and_self
  case zero => rw [hq]; exact BitVec.and_zero

/-- Settles O15: the whole effect is to write the bitwise exclusive or and advance the `pc`; the bytes 0xFF
and 0x80 as the second source are the mask of every bit and the mask of the sign. -/
theorem xorWritesBitwiseXor : Obligations.XorWritesBitwiseXor := by
  intro d p q
  refine ⟨toNat_append_4_4_4 0x9#4 d p q, fun s => ⟨_, completesWritingReg_of_advance (exec_xorReg d p q s),
    fun _ => BitVec.getLsbD_xor, ?clear, fun hq => ?complement, fun hq => ?sign⟩⟩
  case clear => rintro rfl; exact BitVec.xor_self
  case complement => rw [hq]; exact BitVec.xor_allOnes
  case sign => rw [hq]; exact fields_xor_sign _

/-- Settles O16: the whole effect is to write the rotated register and advance the `pc`. -/
theorem rotateMovesEveryBitRight : Obligations.RotateMovesEveryBitRight := fun d ign c =>
  ⟨toNat_append_4_4_4 0xA#4 d ign c, fun s => ⟨_, completesWritingReg_of_advance (exec_rotate d ign c s),
    fun _ => getLsbD_ror8 _ (rotateCount_lt c), ror8_rotateCount_of_zero_or_eight _,
    ror8_rotateCount_of_zeros_or_ones c⟩⟩

end Sys2Proof.Machine
end

section
/-! SUPPORT. The two outcomes of the comparison of JUMP-IF-EQ, and what an instruction whose whole effect
is to set the `pc` leaves as it was (spec/45_control.md). -/

namespace Sys2Proof.Machine

theorem exec_jumpIfEq_taken {r : RegNum} (t : Byte) {s : State} (h : readReg s r = readReg s 0#4) :
    exec (.jumpIfEq r t) s = .next (setPc s t) := by
  rw [exec_jumpIfEq, if_pos h]

theorem exec_jumpIfEq_not_taken {r : RegNum} (t : Byte) {s : State} (h : readReg s r ≠ readReg s 0#4) :
    exec (.jumpIfEq r t) s = .next (advance s) := by
  rw [exec_jumpIfEq, if_neg h]

/-- `JUMP` compares `x[0]` with itself (rule R71). -/
theorem exec_jump (t : Byte) (s : State) : exec (Instr.jump t) s = .next (setPc s t) :=
  exec_jumpIfEq_taken t rfl

theorem State.KeepsAll.setPc {s t : State} (h : s.KeepsAll t) (pc : Byte) : s.KeepsAll (setPc t pc) := h

/-- An instruction whose whole effect is to set the `pc` completes there without an event. -/
theorem completesKeepingAll_of_setPc {i : Instr} {s : State} {pc : Byte}
    (h : exec i s = .next (setPc s pc)) : CompletesKeepingAll i s pc s.report :=
  ⟨_, h, (State.KeepsAll.refl s).setPc pc, rfl, rfl⟩

end Sys2Proof.Machine
end

section
/-! The obligations about JUMP-IF-EQ and HALT (spec/45_control.md). -/

namespace Sys2Proof.Machine

/-- Settles O17: taken, the whole effect is to set the `pc`, and not taken, to advance it; after a jump to
the top the next fetch is the one that faults. -/
theorem jumpIfEqSetsOnlyThePc : Obligations.JumpIfEqSetsOnlyThePc := by
  intro r t
  refine ⟨toNat_append_4_8 0xB#4 r t, toNat_append_4_8 0xB#4 0#4 t, fun s => ⟨fun heq => ?taken,
    fun hne => ?notTaken, completesKeepingAll_of_setPc (exec_jump t s), fun _ _ htop => step_at_top htop⟩⟩
  case taken => exact completesKeepingAll_of_setPc (exec_jumpIfEq_taken t heq)
  case notTaken => exact completesKeepingAll_of_advance (exec_jumpIfEq_not_taken t hne)

/-- Settles O18: the instruction does nothing, so its Cycle only fetches, and so does a further one, which
finds the same word at the same `pc`. -/
theorem haltKeepsEverything : Obligations.HaltKeepsEverything := by
  intro n
  have hop : opField (encode (.halt n)) = 0xC#4 := opField_encode (.halt n)
  refine ⟨toNat_append_eq_add 0xC#4 n, fun s => ⟨s, exec_halt n s, State.KeepsAll.refl s, rfl, rfl⟩,
    fun s hfetch => ?_⟩
  have hagain : fetchWord params (fetched s (encode (.halt n))) = .ok (encode (.halt n)) := hfetch
  exact ⟨fetched s (encode (.halt n)), step_of_halt hfetch hop, (halted_iff _).2 hop, rfl, rfl,
    fun _ => rfl, fun _ => rfl, step_of_halt hagain hop⟩

end Sys2Proof.Machine
end

section
/-! SUPPORT. The outcomes of the operations that decode, load and return an image, one equation per case
(spec/46_image_loader.md rules R163, R169 to R171, R177 and R179). -/

namespace Sys2Proof.Machine

theorem State.SameProcessor.observesSame {s t : State} (h : s.SameProcessor t) : s.ObservesSame t := by
  refine ⟨fun i => ?_, h.pc.symm, h.ir.symm, fun a => ?_⟩
  · rw [readReg, readReg]; simp only [h.x]
  · rw [State.memAt, State.memAt, h.mem]

/-! ### LoadImage and Encode -/

theorem perform_loadImage_valid {s : State} (h : s.imgValid = true) :
    perform .loadImage s = .ok { s with mem := Image.toMemory s.img } .none none := if_pos h

theorem perform_loadImage_invalid {s : State} (h : s.imgValid = false) :
    perform .loadImage s = .error s .noImage := if_neg (Bool.eq_false_iff.1 h)

theorem perform_encode_valid {s : State} (h : s.imgValid = true) :
    perform .encode s = .ok s (.bytes (Image.bytes s.img)) none := if_pos h

theorem perform_encode_invalid {s : State} (h : s.imgValid = false) :
    perform .encode s = .error s .noImage := if_neg (Bool.eq_false_iff.1 h)

/-! ### Decode, DecodeRaw and End -/

theorem perform_decode_of_ok {stream : List Byte} {d : Decoded} (h : decodeStream params stream = .ok d)
    (s : State) : perform (.decode stream) s =
      .ok (decodeDone (scrambleLoader s) d.img d.ipc) (.ipc d.ipc) none := by
  simp only [perform, decodeOp, h]

theorem perform_decode_of_error {stream : List Byte} {r : FormatReason}
    (h : decodeStream params stream = .error r) (s : State) :
    perform (.decode stream) s = .error (loaderFailed s) (.formatError (some r)) := by
  simp only [perform, decodeOp, h]

/-- Of the dump's length the decided parameters accept 256 alone (rule R170). -/
theorem decodeRawStream_of_length_eq {stream : List Byte} (h : stream.length = 256) :
    decodeRawStream params stream =
      .ok (Image.copy [] 0x00#8 stream, Image.read (Image.copy [] 0x00#8 stream) 0x00#8) := by
  rw [decodeRawStream, if_neg (by omega), if_neg (by omega)]

theorem decodeRawStream_of_lt_length {stream : List Byte} (h : 256 < stream.length) :
    decodeRawStream params stream = .error .rawTooLong := if_pos h

theorem decodeRawStream_of_length_lt {stream : List Byte} (h : stream.length < 256) :
    decodeRawStream params stream = .error .rawTooShort := by
  rw [decodeRawStream, if_neg (by omega), if_pos ⟨h, rfl⟩]

theorem perform_decodeRaw_of_ok {stream : List Byte} {g : Image} {entry : Byte}
    (h : decodeRawStream params stream = .ok (g, entry)) (s : State) :
    perform (.decodeRaw stream) s = .ok (decodeDone s g entry) (.ipc entry) none := by
  simp only [perform, decodeRawOp, h]

theorem perform_decodeRaw_of_error {stream : List Byte} {r : FormatReason}
    (h : decodeRawStream params stream = .error r) (s : State) :
    perform (.decodeRaw stream) s = .error (decodeFailed s) (.formatError (some r)) := by
  simp only [perform, decodeRawOp, h]

theorem perform_loaderEnd_addr {s : State} (h : s.ldr.ph = .addr) :
    perform .loaderEnd s = .ok (loaderEnd s) (.ipc s.ipc) none := by
  simp only [perform, loaderEndOp, h]

theorem perform_loaderEnd_err {s : State} (h : s.ldr.ph = .err) :
    perform .loaderEnd s = .error (loaderFailed s) (.formatError s.ldr.err) := by
  simp only [perform, loaderEndOp, h]

theorem perform_loaderEnd_val {s : State} (h : s.ldr.ph = .val) :
    perform .loaderEnd s = .error (loaderFailed s) (.formatError (some .truncatedPair)) := by
  simp only [perform, loaderEndOp, h]

theorem perform_loaderEnd_blk {s : State} (h : s.ldr.ph = .blk) :
    perform .loaderEnd s = .error (loaderFailed s) (.formatError (some .truncatedBlock)) := by
  simp only [perform, loaderEndOp, h]

/-! ### The states a failed decode leaves -/

/-- Everything a `Decode` that fails can answer (rules R168, R169). -/
theorem perform_decode_error_inv {stream : List Byte} {s t : State} {f : Fault}
    (h : perform (.decode stream) s = .error t f) :
    (∃ r, f = .formatError r) ∧ t = loaderFailed s := by
  cases hd : decodeStream params stream with
  | ok d => rw [perform_decode_of_ok hd] at h; cases h
  | error r => rw [perform_decode_of_error hd] at h; cases h; exact ⟨⟨_, rfl⟩, rfl⟩

/-- Everything a `DecodeRaw` that fails can answer (rules R169, R170). -/
theorem perform_decodeRaw_error_inv {stream : List Byte} {s t : State} {f : Fault}
    (h : perform (.decodeRaw stream) s = .error t f) :
    (∃ r, f = .formatError r) ∧ t = decodeFailed s := by
  cases hd : decodeRawStream params stream with
  | ok d => rw [perform_decodeRaw_of_ok hd] at h; cases h
  | error r => rw [perform_decodeRaw_of_error hd] at h; cases h; exact ⟨⟨_, rfl⟩, rfl⟩

/-- Everything an `End` that fails can answer (rules R169, R177). -/
theorem perform_loaderEnd_error_inv {s t : State} {f : Fault} (h : perform .loaderEnd s = .error t f) :
    (∃ r, f = .formatError r) ∧ t = loaderFailed s := by
  cases hp : s.ldr.ph with
  | addr => rw [perform_loaderEnd_addr hp] at h; cases h
  | val => rw [perform_loaderEnd_val hp] at h; cases h; exact ⟨⟨_, rfl⟩, rfl⟩
  | blk => rw [perform_loaderEnd_blk hp] at h; cases h; exact ⟨⟨_, rfl⟩, rfl⟩
  | err => rw [perform_loaderEnd_err hp] at h; cases h; exact ⟨⟨_, rfl⟩, rfl⟩

/-! ### Ending `Ok` -/

theorem OpOutcome.endsOk_ok_iff {s t : State} {r : OpResult} {e : Option Event} :
    (OpOutcome.ok s r e).EndsOk t ↔ t = s := by simp [OpOutcome.EndsOk, eq_comm]

theorem OpOutcome.endsOk_error_iff {s t : State} {f : Fault} :
    (OpOutcome.error s f).EndsOk t ↔ False := by simp [OpOutcome.EndsOk]

/-- `End` is `Ok` in the phase ADDR alone (rule R177). -/
theorem perform_loaderEnd_endsOk_iff {s t : State} :
    (perform .loaderEnd s).EndsOk t ↔ s.ldr.ph = .addr ∧ t = loaderEnd s := by
  cases h : s.ldr.ph with
  | addr => simp [perform_loaderEnd_addr h, OpOutcome.endsOk_ok_iff]
  | val => simp [perform_loaderEnd_val h, OpOutcome.endsOk_error_iff]
  | blk => simp [perform_loaderEnd_blk h, OpOutcome.endsOk_error_iff]
  | err => simp [perform_loaderEnd_err h, OpOutcome.endsOk_error_iff]

/-- `Decode` is `Ok` where the stream decodes (rule R163). -/
theorem perform_decode_endsOk_iff {stream : List Byte} {s t : State} :
    (perform (.decode stream) s).EndsOk t ↔
      ∃ d, decodeStream params stream = .ok d ∧ t = decodeDone (scrambleLoader s) d.img d.ipc := by
  cases h : decodeStream params stream with
  | ok d => simp [perform_decode_of_ok h, OpOutcome.endsOk_ok_iff]
  | error r => simp [perform_decode_of_error h, OpOutcome.endsOk_error_iff]

end Sys2Proof.Machine
end

section
/-! SUPPORT. The two forms of Decode side by side: the image under construction that a state of the
byte-serial loader holds between two pairs, what a run of bytes does to it, and that the loop's bound never
runs out (spec/46_image_loader.md rules R163, R174 to R178 and R230). -/

namespace Sys2Proof.Machine

/-! ### A run of bytes -/

@[simp] theorem loaderBytes_nil (P : Params) (s : State) : loaderBytes P s [] = s := rfl

@[simp] theorem loaderBytes_cons (P : Params) (s : State) (b : Byte) (bs : List Byte) :
    loaderBytes P s (b :: bs) = loaderBytes P (loaderByte P s b) bs := rfl

theorem loaderBytes_take_drop (P : Params) (s : State) (k : Nat) (bs : List Byte) :
    loaderBytes P s bs = loaderBytes P (loaderBytes P s (bs.take k)) (bs.drop k) := by
  simp only [loaderBytes, ← List.foldl_append, List.take_append_drop]

theorem loaderBytes_of_err {P : Params} {s : State} (h : s.ldr.ph = .err) (bs : List Byte) :
    loaderBytes P s bs = s := by
  induction bs with
  | nil => rfl
  | cons b bs ih => rw [loaderBytes_cons, loaderByte_err h, ih]

/-- The value byte of a pair leaves the count to `Byte` (rule R174). -/
theorem loaderValue_cnt (s : State) (v : Byte) : (loaderValue s v).ldr.cnt = s.ldr.cnt := by
  unfold loaderValue loaderError
  simp only
  repeat' split
  all_goals rfl

/-- Below the bound every byte is counted, in each phase but ERR (rule R174). -/
theorem loaderByte_cnt {P : Params} {s : State} (b : Byte) (h : s.ldr.ph ≠ .err)
    (hc : s.ldr.cnt ≠ P.imgMaxStreamBytes) : (loaderByte P s b).ldr.cnt = s.ldr.cnt + 1 := by
  cases hp : s.ldr.ph with
  | err => exact absurd hp h
  | addr => rw [loaderByte_addr hp hc]
  | val => rw [loaderByte_val hp hc, loaderValue_cnt]; rfl
  | blk => rw [loaderByte_blk hp hc]; rfl

/-- More bytes than the bound leaves room for end in the phase ERR, whatever they are (rules R168, R174). -/
theorem loaderBytes_too_long {P : Params} {s : State} {bs : List Byte}
    (hs : s.ldr.cnt ≤ P.imgMaxStreamBytes) (h : P.imgMaxStreamBytes < s.ldr.cnt + bs.length) :
    (loaderBytes P s bs).ldr.ph = .err := by
  induction bs generalizing s with
  | nil => exact absurd h (Nat.not_lt.2 hs)
  | cons b bs ih =>
    rw [List.length_cons] at h
    by_cases he : s.ldr.ph = .err
    · rw [loaderBytes_of_err he, he]
    · by_cases hc : s.ldr.cnt = P.imgMaxStreamBytes
      · rw [loaderBytes_cons, loaderByte_full he hc, loaderBytes_of_err rfl]; rfl
      · have hcnt := loaderByte_cnt b he hc
        exact ih (by omega) (by omega)

/-! ### Between two pairs -/

/-- Between two pairs the loader holds the image under construction `d`, and has room for `n` bytes more. -/
structure State.HasBuilt (P : Params) (s : State) (d : Decoded) (n : Nat) : Prop where
  ph : s.ldr.ph = .addr
  img : s.img = d.img
  ipc : s.ipc = d.ipc
  pcSet : s.ldr.pcSet = d.pcSet
  room : s.ldr.cnt + n ≤ P.imgMaxStreamBytes

/-- The loader has counted both bytes of a pair and latched its address; the value is still to be acted on. -/
def State.pairLatched (s : State) (a : Byte) : State :=
  { s with ldr := { s.ldr with cnt := s.ldr.cnt + 2, aLat := a, ph := .val } }

section Block

variable {P : Params} {s : State} {d : Decoded} {bs : List Byte}

/-- A block with bytes missing is still open after those there are (rule R176). -/
theorem loaderBytes_block_short (hp : s.ldr.ph = .blk) (hlt : bs.length < s.ldr.rem.toNat)
    (hc : s.ldr.cnt + bs.length ≤ P.imgMaxStreamBytes) : (loaderBytes P s bs).ldr.ph = .blk := by
  induction bs generalizing s with
  | nil => exact hp
  | cons b bs ih =>
    rw [List.length_cons] at hlt hc
    have hmore : s.ldr.rem - 1#8 ≠ 0x00#8 := by bv_omega
    rw [loaderBytes_cons, loaderByte_blk hp (by omega)]
    refine ih ?_ ?_ ?_
    · exact if_neg hmore
    · change bs.length < (s.ldr.rem - 1#8).toNat
      bv_omega
    · change s.ldr.cnt + 1 + bs.length ≤ _
      omega

/-- The bytes of an open block, all of them, are copied from `dst` on and end it (rule R176). -/
theorem loaderBytes_block {n : Nat} (hp : s.ldr.ph = .blk) (hlen : bs.length = s.ldr.rem.toNat)
    (h0 : s.ldr.rem ≠ 0x00#8) (himg : s.img = d.img) (hipc : s.ipc = d.ipc)
    (hset : s.ldr.pcSet = d.pcSet) (hc : s.ldr.cnt + bs.length + n ≤ P.imgMaxStreamBytes) :
    (loaderBytes P s bs).HasBuilt P { d with img := Image.copy d.img s.ldr.dst bs } n := by
  induction bs generalizing s d with
  | nil => exact absurd (BitVec.eq_of_toNat_eq hlen.symm) h0
  | cons b bs ih =>
    rw [List.length_cons] at hlen hc
    rw [loaderBytes_cons, loaderByte_blk hp (by omega), Image.copy]
    have hroom : s.ldr.cnt + 1 + bs.length + n ≤ P.imgMaxStreamBytes := by omega
    have hwrite : (loaderBlock (loaderCount s) b).img = Image.write d.img s.ldr.dst b := by
      rw [← himg]; rfl
    by_cases hlast : s.ldr.rem - 1#8 = 0x00#8
    · obtain rfl : bs = [] := List.eq_nil_of_length_eq_zero (by bv_omega)
      exact ⟨if_pos hlast, hwrite, hipc, hset, hroom⟩
    · have hrem : bs.length = (s.ldr.rem - 1#8).toNat := by bv_omega
      exact ih (d := { d with img := Image.write d.img s.ldr.dst b }) (if_neg hlast) hrem hlast hwrite
        hipc hset hroom

end Block

/-! ### One pair (rules R163, R174, R175) -/

namespace State.HasBuilt

variable {P : Params} {s : State} {d : Decoded} {n : Nat} {a v : Byte} {rest : List Byte}

/-- The first two bytes are the address and the value of one pair. -/
theorem loaderBytes_pair (h : s.HasBuilt P d (a :: v :: rest).length) :
    loaderBytes P s (a :: v :: rest) = loaderBytes P (loaderValue (s.pairLatched a) v) rest := by
  have hroom : s.ldr.cnt + (rest.length + 2) ≤ P.imgMaxStreamBytes := h.room
  rw [loaderBytes_cons, loaderByte_addr h.ph (by omega), loaderBytes_cons, loaderByte_val rfl ?second]
  · rfl
  case second => change s.ldr.cnt + 1 ≠ _; omega

theorem room_of_pair (h : s.HasBuilt P d (n + 2)) : s.ldr.cnt + 2 + n ≤ P.imgMaxStreamBytes := by
  have := h.room
  omega

theorem entry (h : s.HasBuilt P d (n + 2)) (he : a = 0x00#8 ∧ d.pcSet = false) :
    (loaderValue (s.pairLatched a) v).HasBuilt P (setEntry d v) n := by
  rw [← h.pcSet] at he
  rw [loaderValue_entry he]
  exact ⟨rfl, congrArg (Image.write · 0x00#8 v) h.img, rfl, rfl, h.room_of_pair⟩

theorem plain (h : s.HasBuilt P d (n + 2)) (he : ¬ (a = 0x00#8 ∧ d.pcSet = false))
    (hb : ¬ (d.pcSet = true ∧ a = d.ipc)) :
    (loaderValue (s.pairLatched a) v).HasBuilt P (plainWrite d a v) n := by
  rw [← h.pcSet] at he hb
  rw [← h.ipc] at hb
  rw [loaderValue_plain he hb]
  exact ⟨rfl, congrArg (Image.write · a v) h.img, h.ipc, h.pcSet, h.room_of_pair⟩

theorem block_pastMemory (h : s.HasBuilt P d (n + 2)) (hb : d.pcSet = true ∧ a = d.ipc)
    (hv : 256 < a.toNat + v.toNat) : (loaderValue (s.pairLatched a) v).ldr.ph = .err := by
  rw [← h.pcSet, ← h.ipc] at hb
  rw [loaderValue_pastMemory hb hv]; rfl

theorem block_short (h : s.HasBuilt P d (rest.length + 2)) (hb : d.pcSet = true ∧ a = d.ipc)
    (hv : ¬ 256 < a.toNat + v.toNat) (hlt : rest.length < v.toNat) :
    (loaderBytes P (loaderValue (s.pairLatched a) v) rest).ldr.ph = .blk := by
  rw [← h.pcSet, ← h.ipc] at hb
  have h0 : v ≠ 0x00#8 := by
    rintro rfl
    exact Nat.not_lt_zero _ hlt
  rw [loaderValue_block hb hv h0]
  exact loaderBytes_block_short rfl hlt h.room_of_pair

theorem block {bs : List Byte} (h : s.HasBuilt P d (bs.length + n + 2))
    (hb : d.pcSet = true ∧ a = d.ipc) (hv : ¬ 256 < a.toNat + v.toNat) (hlen : bs.length = v.toNat) :
    (loaderBytes P (loaderValue (s.pairLatched a) v) bs).HasBuilt P
      { d with img := Image.copy d.img a bs } n := by
  rw [← h.pcSet, ← h.ipc] at hb
  have hroom := h.room_of_pair
  by_cases h0 : v = 0x00#8
  · obtain rfl : bs = [] := List.eq_nil_of_length_eq_zero (by rw [hlen, h0]; rfl)
    rw [h0, loaderValue_emptyBlock hb]
    exact ⟨rfl, h.img, h.ipc, h.pcSet, by rwa [List.length_nil, Nat.zero_add] at hroom⟩
  · rw [loaderValue_block hb hv h0]
    refine loaderBytes_block rfl hlen h0 h.img h.ipc h.pcSet ?_
    rwa [Nat.add_assoc]

end State.HasBuilt

/-! ### The two forms agree -/

/-- The byte-serial loader stands where Decode has ended: between two pairs with what Decode has built, or
in a phase in which `End` fails. -/
def State.Agrees (P : Params) (s : State) : Except FormatReason Decoded → Prop
  | .ok d => s.HasBuilt P d 0
  | .error _ => s.ldr.ph ≠ .addr

theorem State.agrees_error_of_phase {P : Params} {s : State} {p : Phase} (h : s.ldr.ph = p)
    (hp : p ≠ .addr) (r : FormatReason) : s.Agrees P (.error r) := fun he => hp (h.symm.trans he)

/-- The bytes of a stream that fits the bound do what the loop of rule R163 does (rule R178). -/
theorem loaderBytes_agrees {P : Params} {fuel : Nat} {stream : List Byte} {d : Decoded} {s : State}
    (hfuel : stream.length ≤ fuel) (h : s.HasBuilt P d stream.length) :
    (loaderBytes P s stream).Agrees P (decodePairs fuel stream d) := by
  induction fuel, stream, d using decodePairs.induct generalizing s with
  | case1 fuel d => rw [decodePairs_nil]; exact h
  | case2 b bs d => exact absurd hfuel (Nat.not_succ_le_zero _)
  | case3 fuel a d =>
    have hc : s.ldr.cnt + 1 ≤ P.imgMaxStreamBytes := h.room
    rw [loaderBytes_cons, loaderByte_addr h.ph (by omega), loaderBytes_nil, decodePairs]
    exact nofun
  | case4 fuel a v rest d he ih =>
    rw [h.loaderBytes_pair, decodePairs_entry he]
    rw [List.length_cons, List.length_cons] at hfuel h
    exact ih (by omega) (h.entry he)
  | case5 fuel a v rest d _ hb hv =>
    have herr := h.block_pastMemory hb hv
    rw [h.loaderBytes_pair, decodePairs_block hb, if_pos hv, loaderBytes_of_err herr]
    exact State.agrees_error_of_phase herr nofun _
  | case6 fuel a v rest d _ hb hv hl =>
    rw [h.loaderBytes_pair, decodePairs_block hb, if_neg hv, if_pos hl]
    exact State.agrees_error_of_phase (h.block_short hb hv hl) nofun _
  | case7 fuel a v rest d _ hb hv hl ih =>
    have htake : (rest.take v.toNat).length = v.toNat := List.length_take_of_le (Nat.not_lt.1 hl)
    have hlen : (rest.take v.toNat).length + (rest.drop v.toNat).length = rest.length := by
      rw [← List.length_append, List.take_append_drop]
    rw [h.loaderBytes_pair, decodePairs_block hb, if_neg hv, if_neg hl]
    rw [List.length_cons, List.length_cons] at hfuel h
    rw [loaderBytes_take_drop P _ v.toNat]
    exact ih (by omega) (State.HasBuilt.block (hlen ▸ h) hb hv htake)
  | case8 fuel a v rest d he hb ih =>
    rw [h.loaderBytes_pair, decodePairs_plain he hb]
    rw [List.length_cons, List.length_cons] at hfuel h
    exact ih (by omega) (h.plain he hb)

/-- `Begin` and the bytes of any stream do what Decode does, the bound included (rules R168, R178). -/
theorem loaderRun_agrees (P : Params) (s : State) (stream : List Byte) :
    (loaderRun P s stream).Agrees P (decodeStream P stream) := by
  unfold decodeStream loaderRun
  split
  · next hlong =>
    have herr : (loaderBytes P (loaderBegin s) stream).ldr.ph = .err :=
      loaderBytes_too_long (Nat.zero_le _) (by rwa [loaderBegin_ldr, Nat.zero_add])
    exact State.agrees_error_of_phase herr nofun _
  · next hfits =>
    exact loaderBytes_agrees le_rfl ⟨rfl, rfl, rfl, rfl, by simpa using hfits⟩

/-! ### As operations -/

theorem performAll_loaderBytes (s : State) (stream : List Byte) :
    performAll (stream.map .loaderByte) s = .ok (loaderBytes params s stream) .none none := by
  induction stream generalizing s with
  | nil => rfl
  | cons b bs ih => exact ih _

theorem performAll_loaderRun (s : State) (stream : List Byte) :
    performAll ([.loaderBegin] ++ stream.map .loaderByte) s =
      .ok (loaderRun params s stream) .none none := performAll_loaderBytes _ _

end Sys2Proof.Machine
end

section
/-! SUPPORT. The loop of Decode, reads of an image after a block and after a raw dump, and the invariant of
the byte-serial loader (spec/46_image_loader.md rules R163, R165, R168, R171 to R177 and R230). -/

namespace Sys2Proof.Machine

/-! ### The loop of rule R163 -/

/-- Every turn takes two bytes or more, so a bound of the stream's length is as good as the next one. -/
theorem decodePairs_succ {fuel : Nat} {stream : List Byte} {d : Decoded} (h : stream.length ≤ fuel) :
    decodePairs (fuel + 1) stream d = decodePairs fuel stream d := by
  induction fuel, stream, d using decodePairs.induct with
  | case1 fuel d => rw [decodePairs_nil, decodePairs_nil]
  | case2 b bs d => exact absurd h (Nat.not_succ_le_zero _)
  | case3 fuel a d => rfl
  | case4 fuel a v rest d he ih =>
    rw [List.length_cons, List.length_cons] at h
    rw [decodePairs_entry he, decodePairs_entry he, ih (by omega)]
  | case5 fuel a v rest d _ hb hv =>
    rw [decodePairs_block hb, decodePairs_block hb, if_pos hv, if_pos hv]
  | case6 fuel a v rest d _ hb hv hl =>
    rw [decodePairs_block hb, decodePairs_block hb, if_neg hv, if_neg hv, if_pos hl, if_pos hl]
  | case7 fuel a v rest d _ hb hv hl ih =>
    rw [List.length_cons, List.length_cons] at h
    rw [decodePairs_block hb, decodePairs_block hb, if_neg hv, if_neg hv, if_neg hl, if_neg hl,
      ih (by rw [List.length_drop]; omega)]
  | case8 fuel a v rest d he hb ih =>
    rw [List.length_cons, List.length_cons] at h
    rw [decodePairs_plain he hb, decodePairs_plain he hb, ih (by omega)]

/-- The loop's bound never runs out (rule R230). -/
theorem decodePairs_eq_of_length_le {n : Nat} {stream : List Byte} (d : Decoded) (h : stream.length ≤ n) :
    decodePairs n stream d = decodePairs stream.length stream d := by
  induction n, h using Nat.le_induction with
  | base => rfl
  | succ n hn ih => rw [decodePairs_succ hn, ih]

/-- The sub-reasons with which the loop ends (rule R168). -/
theorem decodePairs_error {fuel : Nat} {stream : List Byte} {d : Decoded} {r : FormatReason}
    (h : decodePairs fuel stream d = .error r) :
    r = .blockPastMemory ∨ r = .truncatedPair ∨ r = .truncatedBlock := by
  induction fuel, stream, d using decodePairs.induct with
  | case1 fuel d => rw [decodePairs_nil] at h; cases h
  | case2 b bs d => cases h; exact .inr (.inl rfl)
  | case3 fuel a d => cases h; exact .inr (.inl rfl)
  | case4 fuel a v rest d he ih => rw [decodePairs_entry he] at h; exact ih h
  | case5 fuel a v rest d _ hb hv =>
    rw [decodePairs_block hb, if_pos hv] at h
    cases h; exact .inl rfl
  | case6 fuel a v rest d _ hb hv hl =>
    rw [decodePairs_block hb, if_neg hv, if_pos hl] at h
    cases h; exact .inr (.inr rfl)
  | case7 fuel a v rest d _ hb hv hl ih =>
    rw [decodePairs_block hb, if_neg hv, if_neg hl] at h
    exact ih h
  | case8 fuel a v rest d he hb ih => rw [decodePairs_plain he hb] at h; exact ih h

/-! ### Reads of an image -/

/-- The cell listed first answers its byte, and the list after it every other cell. -/
theorem Image.read_cons (a v : Byte) (g : Image) (b : Byte) :
    Image.read ((a.toNat, v) :: g) b = if b = a then v else Image.read g b := by
  simp only [Image.read, cellsRead, ← BitVec.toNat_inj]
  split <;> rfl

/-- After a block that ends at or below address 255 the cells it names hold its bytes in order (rule R165). -/
theorem Image.read_copy_take (g : Image) {a v : Byte} {rest : List Byte} (hv : a.toNat + v.toNat ≤ 256)
    (b : Byte) : Image.read (Image.copy g a (rest.take v.toNat)) b =
      if h : a.toNat ≤ b.toNat ∧ b.toNat < a.toNat + v.toNat ∧ b.toNat - a.toNat < rest.length
      then rest[b.toNat - a.toNat]'h.2.2 else Image.read g b := by
  rw [Image.read_copy _ _ _ _ (by rw [List.length_take]; omega), List.getElem?_take]
  by_cases hin : a.toNat ≤ b.toNat ∧ b.toNat < a.toNat + v.toNat ∧ b.toNat - a.toNat < rest.length
  · obtain ⟨hle, hlt, hlen⟩ := id hin
    have hoff : (b - a).toNat = b.toNat - a.toNat := BitVec.toNat_sub_of_le hle
    rw [dif_pos hin, hoff, if_pos (by omega), List.getElem?_eq_getElem hlen, Option.getD_some]
  · rw [dif_neg hin]
    split
    · next hlt =>
      have hle : a.toNat ≤ b.toNat := by bv_omega
      have hoff : (b - a).toNat = b.toNat - a.toNat := BitVec.toNat_sub_of_le hle
      rw [List.getElem?_eq_none (by omega), Option.getD_none]
    · rfl

@[simp] theorem Image.length_bytes (g : Image) : (Image.bytes g).length = 256 := by
  rw [Image.bytes, List.length_map, length_addresses]

theorem Image.getElem?_bytes (g : Image) (a : Byte) :
    (Image.bytes g)[a.toNat]? = some (Image.read g a) := getElem?_map_addresses _ a

/-- The image of a raw dump of 256 bytes is the dump (rules R170, R172). -/
theorem Image.getElem?_of_copy {stream : List Byte} (h : stream.length = 256) (a : Byte) :
    stream[a.toNat]? = some (Image.read (Image.copy [] 0x00#8 stream) a) := by
  have ha : a.toNat < stream.length := h ▸ a.isLt
  rw [Image.read_copy _ _ _ _ (Nat.le_of_eq h), BitVec.sub_zero, List.getElem?_eq_getElem ha,
    Option.getD_some]

theorem Image.bytes_copy {stream : List Byte} (h : stream.length = 256) :
    Image.bytes (Image.copy [] 0x00#8 stream) = stream := by
  refine List.ext_getElem? fun i => ?_
  by_cases hi : i < 256
  · have := (Image.getElem?_bytes _ (BitVec.ofNat 8 i)).trans (Image.getElem?_of_copy h _).symm
    rwa [BitVec.toNat_ofNat, Nat.mod_eq_of_lt hi] at this
  · rw [List.getElem?_eq_none (by rw [Image.length_bytes]; omega), List.getElem?_eq_none (by omega)]

/-! ### The loader's invariant -/

section LoaderWf

variable {P : Params} {s t : State}

/-- The invariant speaks of the loader's registers alone. -/
theorem State.LoaderWf.of_ldr (h : s.LoaderWf P) (e : t.ldr = s.ldr) : t.LoaderWf P := by
  unfold State.LoaderWf at h ⊢
  rwa [e]

/-- In the phases ADDR and VAL the invariant is that no sub-reason is held and the count is in bounds. -/
theorem State.loaderWf_of_pair_phase (hp : s.ldr.ph = .addr ∨ s.ldr.ph = .val) (he : s.ldr.err = none)
    (hc : s.ldr.cnt ≤ P.imgMaxStreamBytes) : s.LoaderWf P := by
  refine ⟨fun hb => ?_, ?_, hc⟩
  · obtain h | h := hp <;> rw [hb] at h <;> cases h
  · obtain h | h := hp <;> simp [h, he]

theorem State.loaderWf_of_blk (hp : s.ldr.ph = .blk) (h0 : s.ldr.rem ≠ 0x00#8)
    (hin : s.ldr.dst.toNat + s.ldr.rem.toNat ≤ 256) (he : s.ldr.err = none)
    (hc : s.ldr.cnt ≤ P.imgMaxStreamBytes) : s.LoaderWf P :=
  ⟨fun _ => ⟨by bv_omega, hin⟩, by simp [hp, he], hc⟩

theorem State.LoaderWf.err_eq_none (h : s.LoaderWf P) (hp : s.ldr.ph ≠ .err) : s.ldr.err = none := by
  obtain ⟨-, herr, -⟩ := h
  exact Option.not_isSome_iff_eq_none.1 (mt herr.2 hp)

theorem loaderBegin_loaderWf (P : Params) (s : State) : (loaderBegin s).LoaderWf P :=
  State.loaderWf_of_pair_phase (.inl rfl) rfl (Nat.zero_le _)

theorem loaderError_loaderWf (hc : s.ldr.cnt ≤ P.imgMaxStreamBytes) (r : FormatReason) :
    (loaderError s r).LoaderWf P :=
  ⟨nofun, ⟨fun _ => rfl, fun _ => rfl⟩, hc⟩

theorem loaderValue_loaderWf (he : s.ldr.err = none) (hc : s.ldr.cnt ≤ P.imgMaxStreamBytes) (v : Byte) :
    (loaderValue s v).LoaderWf P := by
  by_cases hentry : s.ldr.aLat = 0x00#8 ∧ s.ldr.pcSet = false
  · rw [loaderValue_entry hentry]
    exact State.loaderWf_of_pair_phase (.inl rfl) he hc
  by_cases hb : s.ldr.pcSet = true ∧ s.ldr.aLat = s.ipc
  · by_cases hv : 256 < s.ldr.aLat.toNat + v.toNat
    · rw [loaderValue_pastMemory hb hv]
      exact loaderError_loaderWf hc _
    by_cases h0 : v = 0x00#8
    · rw [h0, loaderValue_emptyBlock hb]
      exact State.loaderWf_of_pair_phase (.inl rfl) he hc
    · rw [loaderValue_block hb hv h0]
      exact State.loaderWf_of_blk rfl h0 (Nat.not_lt.1 hv) he hc
  · rw [loaderValue_plain hentry hb]
    exact State.loaderWf_of_pair_phase (.inl rfl) he hc

/-- A block byte takes one from `rem` and adds one to `dst`, which wraps only where the block ends. -/
theorem loaderBlock_loaderWf (he : s.ldr.err = none) (hc : s.ldr.cnt ≤ P.imgMaxStreamBytes)
    (h0 : 0 < s.ldr.rem.toNat) (hin : s.ldr.dst.toNat + s.ldr.rem.toNat ≤ 256) (b : Byte) :
    (loaderBlock s b).LoaderWf P := by
  by_cases hlast : s.ldr.rem - 1#8 = 0x00#8
  · exact State.loaderWf_of_pair_phase (.inl (if_pos hlast)) he hc
  · refine State.loaderWf_of_blk (if_neg hlast) hlast ?_ he hc
    rw [loaderBlock_ldr]
    bv_omega

theorem loaderByte_loaderWf (h : s.LoaderWf P) (b : Byte) : (loaderByte P s b).LoaderWf P := by
  obtain ⟨hblk, -, hcnt⟩ := id h
  by_cases hp : s.ldr.ph = .err
  · rwa [loaderByte_err hp]
  by_cases hc : s.ldr.cnt = P.imgMaxStreamBytes
  · rw [loaderByte_full hp hc]
    exact loaderError_loaderWf hcnt _
  have he := h.err_eq_none hp
  have hroom : s.ldr.cnt + 1 ≤ P.imgMaxStreamBytes := Nat.lt_of_le_of_ne hcnt hc
  cases hph : s.ldr.ph with
  | err => exact absurd hph hp
  | addr =>
    rw [loaderByte_addr hph hc]
    exact State.loaderWf_of_pair_phase (.inr rfl) he hroom
  | val =>
    rw [loaderByte_val hph hc]
    exact loaderValue_loaderWf (s := loaderCount s) he hroom b
  | blk =>
    obtain ⟨h0, hin⟩ := hblk hph
    rw [loaderByte_blk hph hc]
    exact loaderBlock_loaderWf (s := loaderCount s) he hroom h0 hin b

end LoaderWf

/-- The function form of `Decode` and a failed `End` apart, every operation keeps the loader's invariant. -/
theorem perform_keeps_loaderWf {o : Operation} {s : State} (hdecode : ∀ stream, o ≠ .decode stream)
    (hend : o = .loaderEnd → s.ldr.ph = .addr) (h : s.LoaderWf params) :
    ((perform o s).stateOr s).LoaderWf params := by
  cases o with
  | decode stream => exact absurd rfl (hdecode stream)
  | loaderEnd =>
    rw [perform_loaderEnd_addr (hend rfl)]
    exact h
  | loaderBegin => exact loaderBegin_loaderWf params s
  | loaderByte b => exact loaderByte_loaderWf h b
  | cycle =>
    simp only [perform]
    obtain e | e := cycleOp_stateOr s
    · rwa [e]
    · obtain ⟨⟨-, -, -, hldr, -⟩, -⟩ := step_frame e
      exact h.of_ldr hldr.symm
  | loadImage =>
    simp only [perform]
    obtain e | e := loadImageOp_stateOr s
    · rwa [e]
    · exact h.of_ldr (by rw [e])
  | decodeRaw stream =>
    simp only [perform]
    obtain e | ⟨g, entry, -, e⟩ := decodeRawOp_stateOr stream s
    · exact h.of_ldr (by rw [e, decodeFailed_ldr])
    · exact h.of_ldr (by rw [e, decodeDone_ldr])
  | encode => simpa only [perform, encodeOp_stateOr] using h
  | _ => exact h

end Sys2Proof.Machine
end

section
/-! The obligations about the image loader (spec/46_image_loader.md). -/

namespace Sys2Proof.Machine

/-- Settles O44: Begin and the bytes leave the loader where Decode has ended, and `End` is `Ok` between two
pairs alone. -/
theorem serialLoaderAgreesWithDecode : Obligations.SerialLoaderAgreesWithDecode := by
  intro stream s u
  have hagree := loaderRun_agrees params s stream
  simp only [performAll_loaderRun, OpOutcome.endsOk_ok_iff, perform_loaderEnd_endsOk_iff,
    perform_decode_endsOk_iff]
  cases hd : decodeStream params stream with
  | ok d =>
    rw [hd] at hagree
    refine ⟨⟨fun _ => ⟨_, d, rfl, rfl⟩, fun _ => ⟨_, rfl, _, hagree.ph, rfl⟩⟩, ?_⟩
    rintro _ _ _ rfl ⟨_, rfl⟩ ⟨_, ⟨⟩, rfl⟩
    exact ⟨hagree.img, hagree.ipc, rfl, rfl⟩
  | error r =>
    rw [hd] at hagree
    refine ⟨⟨?_, ?_⟩, ?_⟩
    · rintro ⟨_, rfl, _, hph, _⟩
      exact absurd hph hagree
    · rintro ⟨_, _, ⟨⟩, _⟩
    · rintro _ _ _ _ _ ⟨_, ⟨⟩, _⟩

/-- Settles O31: in each phase the byte's equation keeps the invariant, and every other operation but those
named leaves the loader's registers or initialises them. -/
theorem loaderKeepsItsBlockInBounds : Obligations.LoaderKeepsItsBlockInBounds :=
  ⟨loaderBegin_loaderWf params, fun _ b h => loaderByte_loaderWf h b,
    fun _ _ hdecode hend h => perform_keeps_loaderWf hdecode hend h⟩

/-- Settles O35, by what a cell of the copy holds. -/
theorem loadImageCopiesEveryCell : Obligations.LoadImageCopiesEveryCell := fun s =>
  ⟨fun h => ⟨_, perform_loadImage_valid h, Image.toMemory_read s.img, fun _ => rfl, rfl, rfl,
    ⟨rfl, rfl, rfl, rfl, rfl⟩, rfl⟩, perform_loadImage_invalid⟩

/-- Settles O41, by the four equations of the value byte. -/
theorem valueByteEndsThePair : Obligations.ValueByteEndsThePair := by
  intro s v hph hcnt
  obtain ⟨-, -, -, -, -, hvalid, -⟩ := loaderByte_frame params s v
  refine ⟨loaderByte params s v, rfl, (loaderByte_sameProcessor params s v).observesSame, hvalid, ?_⟩
  rw [loaderByte_val hph hcnt]
  refine ⟨fun he => ?entry, fun hb => ?block, fun he hb => ?plain⟩
  case entry =>
    rw [loaderValue_entry (s := loaderCount s) he]
    exact ⟨rfl, rfl, rfl, Image.read_write s.img 0x00#8 v⟩
  case block =>
    by_cases hv : 256 < s.ldr.aLat.toNat + v.toNat
    · rw [loaderValue_pastMemory (s := loaderCount s) hb hv]
      exact ⟨rfl, hb.1, fun _ => rfl, fun _ => ⟨rfl, rfl⟩, fun hin => absurd hv (Nat.not_lt.2 hin),
        fun hin => absurd hv (Nat.not_lt.2 hin)⟩
    by_cases h0 : v = 0x00#8
    · subst h0
      rw [loaderValue_emptyBlock (s := loaderCount s) hb]
      exact ⟨rfl, hb.1, fun _ => rfl, fun hpast => absurd hpast hv, fun _ _ => rfl,
        fun _ hne => absurd rfl hne⟩
    · rw [loaderValue_block (s := loaderCount s) hb hv h0]
      exact ⟨rfl, hb.1, fun _ => rfl, fun hpast => absurd hpast hv, fun _ hz => absurd hz h0,
        fun _ _ => ⟨rfl, rfl, rfl⟩⟩
  case plain =>
    rw [loaderValue_plain (s := loaderCount s) he hb]
    exact ⟨rfl, rfl, rfl, Image.read_write s.img s.ldr.aLat v⟩

/-- Settles O45: a decode that fails leaves one of two states, in both of which the processor is untouched
and the image invalid. -/
theorem failedDecodeIsInvisible : Obligations.FailedDecodeIsInvisible := by
  intro o s t f ho h
  have hfail : (∃ r, f = .formatError r) ∧ (t = loaderFailed s ∨ t = decodeFailed s) := by
    obtain ⟨stream, rfl | rfl⟩ | rfl := ho
    · exact (perform_decode_error_inv h).imp_right .inl
    · exact (perform_decodeRaw_error_inv h).imp_right .inr
    · exact (perform_loaderEnd_error_inv h).imp_right .inl
  obtain ⟨hf, ht⟩ := hfail
  have hinvalid : t.imgValid = false := by
    obtain rfl | rfl := ht
    · exact loaderFailed_imgValid s
    · exact decodeFailed_imgValid s
  have hproc : s.SameProcessor t := by
    obtain rfl | rfl := ht
    · exact loaderFailed_sameProcessor s
    · exact decodeFailed_sameProcessor s
  exact ⟨hf, hproc.x, hproc.pc, hproc.ir, hproc.mem, hinvalid, perform_loadImage_invalid hinvalid,
    perform_encode_invalid hinvalid⟩

/-- Settles O47, by the equation of each kind of pair and what the copy of a block leaves in each cell. -/
theorem decodeTakesOnePairAtATime : Obligations.DecodeTakesOnePairAtATime := by
  intro n a v rest d
  refine ⟨fun he => ⟨setEntry d v, rfl, rfl, Image.read_write d.img 0x00#8 v, decodePairs_entry he⟩,
    fun hb hv hlen => ?block,
    fun he hb => ⟨plainWrite d a v, rfl, rfl, Image.read_write d.img a v, decodePairs_plain he hb⟩,
    decodePairs_nil n d, decodePairs_eq_of_length_le d⟩
  case block =>
    refine ⟨{ d with img := Image.copy d.img a (rest.take v.toNat) }, rfl, hb.1,
      Image.read_copy_take d.img hv, ?_⟩
    rw [decodePairs_block hb, if_neg (Nat.not_lt.2 hv), if_neg (Nat.not_lt.2 hlen)]

/-- Settles O48: the bound is tested before the loop, and the loop ends with the other three alone. -/
theorem formatErrors : Obligations.FormatErrors := by
  refine ⟨fun stream h => if_pos h, fun n v rest d hset => ⟨fun hv => ?past, fun hv hlen => ?short⟩,
    fun _ _ _ => rfl, fun stream r h => ?only⟩
  case past => rw [decodePairs_block ⟨hset, rfl⟩, if_pos hv]
  case short => rw [decodePairs_block ⟨hset, rfl⟩, if_neg (Nat.not_lt.2 hv), if_pos hlen]
  case only =>
    unfold decodeStream at h
    split at h
    · cases h; exact .inl rfl
    · exact .inr (decodePairs_error h)

/-- Settles O49: the image of 256 bytes lists back the bytes copied into it. -/
theorem rawDumpRoundTrips : Obligations.RawDumpRoundTrips := by
  intro stream s
  refine ⟨fun h => ?exact256, fun h => ?long, fun h => ?short⟩
  case exact256 =>
    refine ⟨_, _, perform_decodeRaw_of_ok (decodeRawStream_of_length_eq h) s, ?_, ?_, rfl, rfl, rfl,
      fun _ => rfl, rfl, rfl, fun _ => rfl⟩
    · rw [perform_encode_valid rfl, decodeDone_img, Image.bytes_copy h]
    · rw [List.head?_eq_getElem?]
      exact Image.getElem?_of_copy h 0x00#8
  case long => exact ⟨_, perform_decodeRaw_of_error (decodeRawStream_of_lt_length h) s, decodeFailed_imgValid s⟩
  case short => exact ⟨_, perform_decodeRaw_of_error (decodeRawStream_of_length_lt h) s, decodeFailed_imgValid s⟩

/-- Settles O50, by the byte listing of IMG. -/
theorem encodeReturnsTheImage : Obligations.EncodeReturnsTheImage := fun s =>
  ⟨fun h => ⟨Image.bytes s.img, perform_encode_valid h, Image.length_bytes s.img, Image.getElem?_bytes s.img⟩,
    perform_encode_invalid⟩

/-- Settles O34: the whole effect is to set the `pc`. -/
theorem startTakesTheEntryPoint : Obligations.StartTakesTheEntryPoint := fun s =>
  ⟨setPc s (readMem s 0x00#8), rfl, rfl, (State.KeepsAll.refl s).setPc _, rfl, rfl⟩

/-- Settles O39, field by field. -/
theorem beginInitialisesTheLoader : Obligations.BeginInitialisesTheLoader := fun s =>
  ⟨loaderBegin s, rfl, Image.read_nil, rfl, rfl, rfl, rfl, rfl, rfl,
    State.SameProcessor.observesSame ⟨rfl, rfl, rfl, rfl⟩, rfl⟩

/-- Settles O40, by the equation of each phase. -/
theorem byteIsCountedAndLatched : Obligations.ByteIsCountedAndLatched := fun s b =>
  ⟨loaderByte params s b, rfl, loaderByte_err, loaderByte_full (P := params), loaderByte_cnt (P := params) b,
    loaderByte_addr (P := params)⟩

/-- Settles O42: the equation of the phase BLK; one less than `rem` is 0 where `rem` is 1 alone. -/
theorem blockByteIsCopied : Obligations.BlockByteIsCopied := by
  intro s v hph hcnt
  have hobs := (loaderByte_sameProcessor params s v).observesSame
  rw [loaderByte_blk hph hcnt] at hobs
  refine ⟨_, congrArg (OpOutcome.ok · .none none) (loaderByte_blk hph hcnt), hobs,
    Image.read_write s.img s.ldr.dst v, ?wrap, rfl, fun hlast => ?last, fun hmore => ?more, rfl, rfl, rfl⟩
  case wrap =>
    change s.ldr.dst + 1#8 = _
    bv_omega
  case last => exact if_pos (by rw [loaderCount_ldr, hlast]; rfl)
  case more =>
    refine if_neg ?_
    rw [loaderCount_ldr]
    bv_omega

/-- Settles O43, one outcome per phase. -/
theorem endOutcomeByPhase : Obligations.EndOutcomeByPhase := by
  intro s
  have hproc := (loaderFailed_sameProcessor s).observesSame
  have hreport := loaderFailed_report s
  have hinvalid := loaderFailed_imgValid s
  cases h : s.ldr.ph with
  | addr =>
    exact ⟨loaderEnd s, State.SameProcessor.observesSame ⟨rfl, rfl, rfl, rfl⟩, rfl,
      fun _ => ⟨perform_loaderEnd_addr h, rfl⟩, nofun, nofun, nofun⟩
  | val =>
    exact ⟨loaderFailed s, hproc, hreport, nofun, nofun, fun _ => ⟨perform_loaderEnd_val h, hinvalid⟩, nofun⟩
  | blk =>
    exact ⟨loaderFailed s, hproc, hreport, nofun, nofun, nofun, fun _ => ⟨perform_loaderEnd_blk h, hinvalid⟩⟩
  | err =>
    exact ⟨loaderFailed s, hproc, hreport, nofun, fun _ => ⟨perform_loaderEnd_err h, hinvalid⟩, nofun, nofun⟩

/-- Settles O46: each stream is evaluated to an image that lists the cells named, and every
other cell is zero. -/
theorem workedDecodes : Obligations.WorkedDecodes := by
  refine ⟨⟨⟨[((0x00#8).toNat, 0x10#8), ((0x05#8).toNat, 0xAA#8)], 0x10#8, true⟩, rfl, rfl, fun a => ?plain⟩,
    ⟨⟨[((0x00#8).toNat, 0x02#8), ((0x02#8).toNat, 0x11#8), ((0x03#8).toNat, 0x22#8),
      ((0x04#8).toNat, 0x33#8)], 0x02#8, true⟩, rfl, rfl, fun a => ?block⟩,
    ⟨emptyDecoded, rfl, rfl, Image.read_nil⟩⟩
  case plain => rw [Image.read_cons, Image.read_cons, Image.read_nil]
  case block => rw [Image.read_cons, Image.read_cons, Image.read_cons, Image.read_cons, Image.read_nil]

end Sys2Proof.Machine
end

section
/-! SUPPORT. A Cycle at the top of MEM as an operation, and the host's run loop: its three kinds of turn, what
holds where it ends, and that a longer bound does not move an end (spec/60_exceptions.md rule R205,
spec/70_reset_and_hazards.md rule R225). -/

namespace Sys2Proof.Machine

/-- `Cycle` at the top ends with its error in the state it was invoked in (rules R45, R205). -/
theorem perform_cycle_at_top {s : State} (h : s.pc = 255#8) :
    perform .cycle s = .error s (.fetchOutOfBounds 255#8) := by
  simp only [perform, cycleOp, step_at_top h, afterCycleFault]

/-- A further Cycle after a halting one repeats it (rule R86). -/
theorem step_of_halted {s t : State} (h : step s = .next t) (ht : halted t = true) : step t = .next t := by
  obtain ⟨-, -, hagain⟩ := haltedDependsOnTheFetchedOpcode s t h
  exact (hagain ht).2

/-! ### The turns of the run loop -/

theorem runLoop_succ_of_halted {s t : State} (h : step s = .next t) (ht : halted t = true) (k : Nat) :
    runLoop (k + 1) s = (.halted t, t.report.toList) := by
  simp only [runLoop, h, ht, if_true]

/-- What the next Cycle of a run does, whatever the bound: it faults at the top, halts, or goes on. -/
theorem step_turn (s : State) :
    s.pc = 255#8 ∨ (∃ t, step s = .next t ∧ halted t = true) ∨ ∃ t, step s = .next t ∧ halted t = false := by
  by_cases hpc : s.pc = 255#8
  · exact .inl hpc
  · obtain ⟨t, ht⟩ := step_completes hpc
    cases hhalt : halted t with
    | true => exact .inr (.inl ⟨t, ht, hhalt⟩)
    | false => exact .inr (.inr ⟨t, ht, hhalt⟩)

/-! ### The end of a run -/

/-- What justifies each end of a run: (a) a HALT that a further Cycle repeats, (b) a fetch at the top,
(c) no HALT in `ir` (rule R225). -/
def JustifiedEnd : RunEnd → Prop
  | .halted t => halted t = true ∧ step t = .next t
  | .faulted t f => t.pc = 255#8 ∧ f = .fetchOutOfBounds 255#8
  | .stillRunning t => halted t = false

/-- The end is justified where a Cycle has run, and where none has but the start holds no HALT: the latter
is what every turn that goes on hands to the rest of the run. -/
theorem justifiedEnd_runLoop {k : Nat} {s : State} (h : 0 < k ∨ halted s = false) :
    JustifiedEnd (runLoop k s).1 := by
  induction k generalizing s with
  | zero => exact h.resolve_left (Nat.lt_irrefl 0)
  | succ k ih =>
    obtain htop | ⟨t, hstep, ht⟩ | ⟨t, hstep, ht⟩ := step_turn s
    · rw [runLoop_succ_at_top htop]
      exact ⟨htop, rfl⟩
    · rw [runLoop_succ_of_halted hstep ht]
      exact ⟨ht, step_of_halted hstep ht⟩
    · rw [runLoop_succ_of_running hstep ht]
      exact ih (.inr ht)

/-- A run is the same within a longer bound, or it used up the shorter one. -/
theorem runLoop_eq_or_stillRunning {k m : Nat} (h : k ≤ m) (s : State) :
    runLoop m s = runLoop k s ∨ ∃ t, (runLoop k s).1 = .stillRunning t := by
  induction k generalizing m s with
  | zero => exact .inr ⟨s, rfl⟩
  | succ k ih =>
    obtain ⟨m, rfl⟩ := Nat.exists_eq_add_one_of_ne_zero (Nat.ne_zero_of_lt h)
    obtain htop | ⟨t, hstep, ht⟩ | ⟨t, hstep, ht⟩ := step_turn s
    · exact .inl (by rw [runLoop_succ_at_top htop, runLoop_succ_at_top htop])
    · exact .inl (by rw [runLoop_succ_of_halted hstep ht, runLoop_succ_of_halted hstep ht])
    · rw [runLoop_succ_of_running hstep ht, runLoop_succ_of_running hstep ht]
      obtain hsame | hstill := ih (Nat.le_of_succ_le_succ h) t
      · exact .inl (by rw [hsame])
      · exact .inr hstill

end Sys2Proof.Machine
end

section
/-! The obligations about the fault at the top of MEM, about Reset, and about the end of a run
(spec/60_exceptions.md, spec/70_reset_and_hazards.md). -/

namespace Sys2Proof.Machine

/-- Settles O57: an end is justified after one Cycle, and without one the run stands where it began. -/
theorem runEndsInOneOfThreeWays : Obligations.RunEndsInOneOfThreeWays := by
  intro k s
  obtain rfl | hk := Nat.eq_zero_or_pos k
  · exact .inr (.inr ⟨s, rfl, nofun⟩)
  have hend := justifiedEnd_runLoop (s := s) (.inl hk)
  cases e : (runLoop k s).1 with
  | halted t =>
    rw [e] at hend
    exact .inl ⟨t, rfl, hend⟩
  | faulted t f =>
    rw [e] at hend
    obtain ⟨htop, rfl⟩ := hend
    exact .inr (.inl ⟨t, rfl, htop⟩)
  | stillRunning t =>
    rw [e] at hend
    exact .inr (.inr ⟨t, rfl, fun _ => hend⟩)

/-- Settles O58: a run that is halted or faulted has not used up its bound. -/
theorem runEndIsStable : Obligations.RunEndIsStable := by
  intro k m s hkm
  obtain hsame | ⟨u, hstill⟩ := runLoop_eq_or_stillRunning hkm s
  · exact ⟨fun _ _ => hsame, fun _ _ _ => hsame⟩
  · rw [hstill]
    exact ⟨nofun, nofun⟩

/-- Settles O20: the faulting Cycle leaves the state it was invoked in, so the next one is the same Cycle. -/
theorem fetchAtTheTopFaults : Obligations.FetchAtTheTopFaults := by
  intro s hpc
  have hcycle := perform_cycle_at_top hpc
  refine ⟨step_at_top hpc, hcycle, ?recurs⟩
  rw [hcycle]
  exact hcycle

/-- Settles O33, field by field. -/
theorem resetWritesNothingElse : Obligations.ResetWritesNothingElse := fun s =>
  ⟨resetOp s, perform_reset s, readReg_of_zeroed (resetOp_x s), resetOp_ir s, resetOp_pc s, resetOp_mem s,
    ⟨(resetOp_img s).symm, (resetOp_ipc s).symm, (resetOp_imgValid s).symm, (resetOp_ldr s).symm,
      (resetOp_freeCtr s).symm⟩, resetOp_report s⟩

end Sys2Proof.Machine
end
